-- ==== Sys2Proof/Word.lean ====
section
/-! DEFINITION. The word of the 8-bit CPU (00_scope.md rule R6): every register value, memory byte and address is an
8-bit vector, and all arithmetic on it wraps modulo 256 (log 1). -/

namespace Sys2Proof

/-- A register value, a memory byte, an instruction byte or an address (rules R6, R11, R13, R23). -/
abbrev Byte := BitVec 8

end Sys2Proof
end

