-- ==== Sys2Proof/Config.lean ====
section
/-! DEFINITION. The parameters of the model that the spec names (92_eei_decisions.md, "Parameters of the model") and the
values this model gives them at reset. `MEM_INIT` is an argument of `Machine.State.launch`; the default of
`A_EXTRA_POLICY` is `Sys2Proof.aExtraPolicy` in Decode.lean. -/

namespace Sys2Proof

/-- `A_EXTRA_POLICY` (30_encoding.md rule R48, decision D7): what an A-Type byte does whose `extra` field is not 00. -/
inductive Config.ExtraPolicy where
  /-- it raises `ReservedField` (rule R71); the spec's default -/
  | fault
  /-- the two bits are not decoded: the byte executes as the byte with `extra = 00` -/
  | ignore
  deriving DecidableEq, Repr

/-- `RESET_PC`, the spec's default 0x00 (10_state.md rule R22, decision D3). DESIGN CHOICE of the spec, unsafe: the
source names no entry point (log 3). -/
def Config.resetPc : Byte := 0x00

/-- R0 at `State.reset`. DESIGN CHOICE, unsafe: the spec leaves `REG_INIT` unspecified (10_state.md rule R21), and
`State.launch` takes any value (log 4). -/
def Config.regInit0 : Byte := 0x00

/-- R1 at `State.reset`. DESIGN CHOICE, unsafe: as `Config.regInit0` (log 4). -/
def Config.regInit1 : Byte := 0x00

end Sys2Proof
end

