-- ==== Sys2Proof/Syntax.lean ====
section
/-! DEFINITION. The instructions: one constructor for each of the 16 rows of spec/opcode_table.json (30_encoding.md rule
R46). A reserved opcode is no instruction of the hardware (00_scope.md rule R3); its row is a constructor so that the byte
has a decoding and its model-level fault a meaning (log 7, log 19). -/

namespace Sys2Proof

/-- A general register, as one bit of an instruction selects it: 0 = R0, 1 = R1 (10_state.md rule R10). -/
inductive Reg where
  | r0
  | r1
  deriving DecidableEq, Repr

/-- The 16 rows of the opcode map (30_encoding.md rule R46). `ds` is the destination and first source register, `s` the
second source register (00_scope.md rule R9). Field types carry the fields' ranges: an immediate is 3 bits, an offset 4. -/
inductive Instr where
  /-- opcode 0000, A-Type (41_logical.md rule R63) -/
  | nand (ds s : Reg)
  /-- opcode 0001, A-Type (40_arithmetic.md rule R58) -/
  | add (ds s : Reg)
  /-- opcode 0010, A-Type (40_arithmetic.md rule R60) -/
  | addm (ds s : Reg)
  /-- opcode 0011, B-Type (40_arithmetic.md rule R59) -/
  | addi (ds : Reg) (imm : BitVec 3)
  /-- opcode 0100, A-Type (40_arithmetic.md rule R61) -/
  | sub (ds s : Reg)
  /-- opcode 0101, reserved (rule R47); `low` is the byte's low nibble, which is not decoded -/
  | reserved0101 (low : BitVec 4)
  /-- opcode 0110, reserved (rule R47) -/
  | reserved0110 (low : BitVec 4)
  /-- opcode 0111, reserved (rule R47) -/
  | reserved0111 (low : BitVec 4)
  /-- opcode 1000, reserved (rule R47) -/
  | reserved1000 (low : BitVec 4)
  /-- opcode 1001, reserved (rule R47) -/
  | reserved1001 (low : BitVec 4)
  /-- opcode 1010, reserved (rule R47) -/
  | reserved1010 (low : BitVec 4)
  /-- opcode 1011, reserved (rule R47) -/
  | reserved1011 (low : BitVec 4)
  /-- opcode 1100, reserved (rule R47) -/
  | reserved1100 (low : BitVec 4)
  /-- opcode 1101, reserved (rule R47) -/
  | reserved1101 (low : BitVec 4)
  /-- opcode 1110, reserved (rule R47) -/
  | reserved1110 (low : BitVec 4)
  /-- opcode 1111, C-Type (42_control_flow.md rule R65) -/
  | jmp (offset : BitVec 4)
  deriving DecidableEq, Repr

/-- `ir[7:4]` of the row's bytes (30_encoding.md rule R46). -/
def Instr.opcode : Instr → BitVec 4
  | .nand _ _ => 0b0000
  | .add _ _ => 0b0001
  | .addm _ _ => 0b0010
  | .addi _ _ => 0b0011
  | .sub _ _ => 0b0100
  | .reserved0101 _ => 0b0101
  | .reserved0110 _ => 0b0110
  | .reserved0111 _ => 0b0111
  | .reserved1000 _ => 0b1000
  | .reserved1001 _ => 0b1001
  | .reserved1010 _ => 0b1010
  | .reserved1011 _ => 0b1011
  | .reserved1100 _ => 0b1100
  | .reserved1101 _ => 0b1101
  | .reserved1110 _ => 0b1110
  | .jmp _ => 0b1111

/-- The register an instruction writes, if any (10_state.md rule R12, column "writes"). -/
def Instr.dest : Instr → Option Reg
  | .nand ds _ | .add ds _ | .addm ds _ | .addi ds _ | .sub ds _ => some ds
  | .reserved0101 _ | .reserved0110 _ | .reserved0111 _ | .reserved1000 _ | .reserved1001 _ => none
  | .reserved1010 _ | .reserved1011 _ | .reserved1100 _ | .reserved1101 _ | .reserved1110 _ => none
  | .jmp _ => none

/-- The registers an instruction reads (10_state.md rule R12, column "reads"). -/
def Instr.sources : Instr → List Reg
  | .nand ds s | .add ds s | .addm ds s | .sub ds s => [ds, s]
  | .addi ds _ => [ds]
  | .reserved0101 _ | .reserved0110 _ | .reserved0111 _ | .reserved1000 _ | .reserved1001 _ => []
  | .reserved1010 _ | .reserved1011 _ | .reserved1100 _ | .reserved1101 _ | .reserved1110 _ => []
  | .jmp _ => []

/-- The other register. -/
def Reg.swap : Reg → Reg
  | .r0 => .r1
  | .r1 => .r0

/-- The instruction with R0 and R1 exchanged in its register fields (10_state.md rule R10: both registers behave alike). -/
def Instr.swap : Instr → Instr
  | .nand ds s => .nand ds.swap s.swap
  | .add ds s => .add ds.swap s.swap
  | .addm ds s => .addm ds.swap s.swap
  | .addi ds imm => .addi ds.swap imm
  | .sub ds s => .sub ds.swap s.swap
  | .reserved0101 low => .reserved0101 low
  | .reserved0110 low => .reserved0110 low
  | .reserved0111 low => .reserved0111 low
  | .reserved1000 low => .reserved1000 low
  | .reserved1001 low => .reserved1001 low
  | .reserved1010 low => .reserved1010 low
  | .reserved1011 low => .reserved1011 low
  | .reserved1100 low => .reserved1100 low
  | .reserved1101 low => .reserved1101 low
  | .reserved1110 low => .reserved1110 low
  | .jmp off => .jmp off

end Sys2Proof
end

