-- ==== Sys2Proof/WellFormed.lean ====
section
/-! DEFINITION. Which terms of `Instr` are instructions of this hardware. Field ranges need no check, since the field types
carry them; what is checked is that the row is one of the six implemented ones (00_scope.md rules R2, R3; log 19). -/

namespace Sys2Proof

/-- The instruction is one of the six of "Complete Instruction Set" (00_scope.md rule R2); the ten reserved rows are "not
instructions of this hardware" (rule R3). -/
def Instr.wellFormed : Instr → Bool
  | .nand _ _ | .add _ _ | .addm _ _ | .addi _ _ | .sub _ _ | .jmp _ => true
  | .reserved0101 _ | .reserved0110 _ | .reserved0111 _ | .reserved1000 _ | .reserved1001 _ => false
  | .reserved1010 _ | .reserved1011 _ | .reserved1100 _ | .reserved1101 _ | .reserved1110 _ => false

end Sys2Proof
end

