-- ==== Sys2Proof/Decode.lean ====
section
/-! DEFINITION. Decoding a byte (30_encoding.md rules R39 to R51), the encoder (rule R57) and the rows of the opcode table
as masks and patterns (rule R51). Every instruction is exactly one byte (rule R39), so the decoder reads one byte; it is
total, and a byte it rejects it rejects by name. -/

namespace Sys2Proof

/-- `A_EXTRA_POLICY` of `Machine.step`: the spec's default `fault` (30_encoding.md rule R48, decision D7; log 6). -/
def aExtraPolicy : Config.ExtraPolicy := .fault

/-- Why the decoder gives no instruction. -/
inductive DecodeError where
  /-- `ReservedExtra` of rule R50: an A-Type byte whose `extra` field is not 00, under the policy `fault` -/
  | reservedExtra
  deriving DecidableEq, Repr

/-- `ir[7:4]` (rule R39). -/
def opcodeField (ir : Byte) : BitVec 4 := ir.extractLsb' 4 4

/-- The register a select bit names: 0 = R0, 1 = R1 (rule R43). -/
def regOfBit (b : Bool) : Reg := if b then .r1 else .r0

/-- `ds = ir[3]` (rules R40, R41). -/
def dsField (ir : Byte) : Reg := regOfBit (ir.getLsbD 3)

/-- `s = ir[2]` (rule R40). -/
def sField (ir : Byte) : Reg := regOfBit (ir.getLsbD 2)

/-- `extra = ir[1:0]` (rule R40). -/
def extraField (ir : Byte) : BitVec 2 := ir.extractLsb' 0 2

/-- `ir[2:0]` (rule R41). -/
def immField (ir : Byte) : BitVec 3 := ir.extractLsb' 0 3

/-- `ir[3:0]`: the offset of C-Type (rule R42); not decoded in a reserved row (rule R47). -/
def lowField (ir : Byte) : BitVec 4 := ir.extractLsb' 0 4

/-- An A-Type byte: its `extra` field is checked under the policy `fault` and not decoded under `ignore` (rules R48, R50). -/
def decodeAType (p : Config.ExtraPolicy) (ir : Byte) (mk : Reg → Reg → Instr) : Except DecodeError Instr :=
  if p = .fault ∧ extraField ir ≠ 0b00 then .error .reservedExtra else .ok (mk (dsField ir) (sField ir))

/-- Decode one byte (30_encoding.md rule R50). The rule's answer `Illegal` is one of the ten reserved rows (rule R47). -/
def decode (p : Config.ExtraPolicy) (ir : Byte) : Except DecodeError Instr :=
  match (opcodeField ir).toNat with
  | 0b0000 => decodeAType p ir .nand
  | 0b0001 => decodeAType p ir .add
  | 0b0010 => decodeAType p ir .addm
  | 0b0011 => .ok (.addi (dsField ir) (immField ir))
  | 0b0100 => decodeAType p ir .sub
  | 0b0101 => .ok (.reserved0101 (lowField ir))
  | 0b0110 => .ok (.reserved0110 (lowField ir))
  | 0b0111 => .ok (.reserved0111 (lowField ir))
  | 0b1000 => .ok (.reserved1000 (lowField ir))
  | 0b1001 => .ok (.reserved1001 (lowField ir))
  | 0b1010 => .ok (.reserved1010 (lowField ir))
  | 0b1011 => .ok (.reserved1011 (lowField ir))
  | 0b1100 => .ok (.reserved1100 (lowField ir))
  | 0b1101 => .ok (.reserved1101 (lowField ir))
  | 0b1110 => .ok (.reserved1110 (lowField ir))
  | _ => .ok (.jmp (lowField ir))

/-- The select bit that names a register (rule R43). -/
def Reg.bit : Reg → BitVec 1
  | .r0 => 0
  | .r1 => 1

/-- The A-Type byte with `extra = 00`, which is all an assembler may emit (rules R40, R48). -/
def encodeAType (op : BitVec 4) (ds s : Reg) : Byte := op ++ ds.bit ++ s.bit ++ (0b00 : BitVec 2)

/-- The byte of an instruction (rule R57); a reserved row keeps the low nibble it was read with. -/
def encode (i : Instr) : Byte :=
  match i with
  | .nand ds s | .add ds s | .addm ds s | .sub ds s => encodeAType i.opcode ds s
  | .addi ds imm => i.opcode ++ ds.bit ++ imm
  | .reserved0101 low | .reserved0110 low | .reserved0111 low | .reserved1000 low | .reserved1001 low
  | .reserved1010 low | .reserved1011 low | .reserved1100 low | .reserved1101 low | .reserved1110 low => i.opcode ++ low
  | .jmp off => i.opcode ++ off

/-- The mask of the row's bytes: 0xF3 for A-Type (opcode and `extra`), 0xF0 for the rest; under the policy `ignore` 0xF0
for all (rule R51). -/
def Instr.mask (p : Config.ExtraPolicy) : Instr → Byte
  | .nand _ _ | .add _ _ | .addm _ _ | .sub _ _ => if p = .fault then 0xF3 else 0xF0
  | .addi _ _ | .jmp _ => 0xF0
  | .reserved0101 _ | .reserved0110 _ | .reserved0111 _ | .reserved1000 _ | .reserved1001 _ => 0xF0
  | .reserved1010 _ | .reserved1011 _ | .reserved1100 _ | .reserved1101 _ | .reserved1110 _ => 0xF0

/-- A row of spec/opcode_table.json: a byte `b` is the row's exactly when `b &&& mask = pattern` (rule R51). -/
structure OpcodeRow where
  opcode : BitVec 4
  pattern : Byte
  mask : Byte
  deriving DecidableEq, Repr

/-- spec/opcode_table.json's 16 rows, its columns "match" and "mask" as they stand there (the policy `fault`). -/
def opcodeTable : List OpcodeRow :=
  [⟨0b0000, 0x00, 0xF3⟩, ⟨0b0001, 0x10, 0xF3⟩, ⟨0b0010, 0x20, 0xF3⟩, ⟨0b0011, 0x30, 0xF0⟩,
   ⟨0b0100, 0x40, 0xF3⟩, ⟨0b0101, 0x50, 0xF0⟩, ⟨0b0110, 0x60, 0xF0⟩, ⟨0b0111, 0x70, 0xF0⟩,
   ⟨0b1000, 0x80, 0xF0⟩, ⟨0b1001, 0x90, 0xF0⟩, ⟨0b1010, 0xA0, 0xF0⟩, ⟨0b1011, 0xB0, 0xF0⟩,
   ⟨0b1100, 0xC0, 0xF0⟩, ⟨0b1101, 0xD0, 0xF0⟩, ⟨0b1110, 0xE0, 0xF0⟩, ⟨0b1111, 0xF0, 0xF0⟩]

/-- The byte that the low `nbits` bits of `w` are, bit 0 the least significant (rule R5); the bits above them are 0. -/
def tableByte (nbits w : Nat) : Byte := BitVec.ofNat 8 (w % 2 ^ nbits)

/-- The instruction `decode` reads from a table word. No instruction is longer than one byte (rule R39), so a word with a
bit set above bit 7 is none. -/
def decodeTableWord (nbits w : Nat) : Option Instr :=
  if w % 2 ^ nbits < 256 then (decode aExtraPolicy (tableByte nbits w)).toOption else none

end Sys2Proof
end

