-- ==== Sys2Proof/Machine/Alu.lean ====
section
/-! DEFINITION. The functions of the ALU that an instruction selects (70_reset_and_hazards.md rule R94). None of them gives a
flag: the hardware has no zero, carry or overflow flag (10_state.md rule R15), so there is no flag computation in this
model. The table's fourth function, Multiply, is selected by no instruction (90_conflicts.md C9; log 22). -/

namespace Sys2Proof.Machine

/-- An ALU function that some instruction selects (rule R94). -/
inductive AluFn where
  | add
  | subtract
  | nand
  deriving DecidableEq, Repr

/-- The select signals (ALU0, ALU1) of a function (rule R94). -/
def AluFn.signals : AluFn → Bool × Bool
  | .add => (true, true)
  | .subtract => (true, false)
  | .nand => (false, false)

/-- `A op B` on 8-bit vectors, modulo 256 (rule R94, 00_scope.md rule R6, 40_arithmetic.md rule R62). -/
def alu : AluFn → Byte → Byte → Byte
  | .add, a, b => a + b
  | .subtract, a, b => a - b
  | .nand, a, b => ~~~(a &&& b)

end Sys2Proof.Machine
end

