-- ==== Sys2Proof/Machine/State.lean ====
section
/-! DEFINITION. The state of the machine (10_state.md rule R20): two general registers, the program counter, one memory of
256 bytes, and the model's fault mark. The spec says that nothing else is architectural state: no flags (rule R15), no
control or status registers (rule R16), no stack pointer (rule R17), no mode (60_exceptions.md rule R77). The internal latches
of rule R19 belong to the cycle-level datapath of Machine/Micro.lean (log 12). -/

namespace Sys2Proof.Machine

/-- The model-level faults, a closed set of two (60_exceptions.md rules R69, R72). A fault is no hardware trap: the machine
stops, its architectural state as it was. -/
inductive Fault where
  /-- Raised by the meanings of the ten reserved rows: the byte `ir` fetched at `a` has a reserved opcode (rule R70). Safe:
  the hardware's behaviour is unknown and the model gives it no value (decision D6, log 7). -/
  | illegalInstruction (a ir : Byte)
  /-- Raised by the step under the policy `fault` only: the byte `ir` fetched at `a` is A-Type and its `extra` field is not 00
  (rule R71). Safe: as above (decision D7, log 6). -/
  | reservedField (a ir : Byte)
  deriving DecidableEq, Repr

/-- Why the model gives an instruction no meaning. -/
inductive Refusal where
  /-- Raised by an arm of `exec` for an instruction without a meaning, by the mnemonic of spec/opcode_table.json. No arm
  raises it: every row has its meaning. Safe. -/
  | notModelled (mnemonic : String)
  deriving DecidableEq, Repr

/-- The one memory (20_memory.md rule R23): (address, byte) pairs, addresses rising, with no entry equal to what an
unlisted address reads as (`Memory.wf` in Ops.lean). -/
abbrev Memory := List Host.Cell

/-- The machine's state (10_state.md rule R20). -/
structure State where
  /-- R0 = x[0] (rules R10, R11) -/
  r0 : Byte
  /-- R1 = x[1] (rules R10, R11) -/
  r1 : Byte
  /-- the program counter; between instructions the address of the next one (rule R13) -/
  pc : Byte
  /-- the memory (rule R18) -/
  mem : Memory
  /-- the model's fault mark: absent, or one fault value (60_exceptions.md rule R69); no instruction reads it -/
  faultMark : Option Fault
  deriving DecidableEq, Repr

/-- The start of a run, which stands in for reset (70_reset_and_hazards.md rule R82): `REG_INIT`, `RESET_PC` and `MEM_INIT`
are arguments, and there is no fault mark. -/
def State.launch (x0 x1 resetPc : Byte) (memInit : Memory) : State :=
  { r0 := x0, r1 := x1, pc := resetPc, mem := memInit, faultMark := none }

/-- The machine right after reset: the launch with `RESET_PC` at its default (10_state.md rule R22), the registers at the
values of log 4, and no byte of memory listed (log 5). -/
def State.reset : State := State.launch Config.regInit0 Config.regInit1 Config.resetPc []

end Sys2Proof.Machine
end

