-- ==== Sys2Proof/Machine/Ops.lean ====
section
/-! DEFINITION. The named operations over registers and memory, and the model-level fault. Every read and write of a
register or of memory by a meaning goes through them. -/

namespace Sys2Proof.Machine

/-- What an address no entry lists reads as. DESIGN CHOICE, unsafe: the source gives no reset contents (20_memory.md rule
R25); that it is a byte and no fault is rules R25 and R72 (log 5). -/
def Memory.unlisted : Byte := 0x00

/-- `MemRead(addr, 1)` (20_memory.md rule R26): the byte at an 8-bit address. It cannot fail and changes nothing. -/
def Memory.read : Memory → Byte → Byte
  | [], _ => Memory.unlisted
  | (a, b) :: m, addr => if a = addr.toNat then b else Memory.read m addr

/-- Put a byte at a numeric address and keep the canonical form. -/
def Memory.put : Memory → Nat → Byte → Memory
  | [], k, v => if v = Memory.unlisted then [] else [(k, v)]
  | (a, b) :: m, k, v =>
    if k < a then (if v = Memory.unlisted then (a, b) :: m else (k, v) :: (a, b) :: m)
    else if k = a then (if v = Memory.unlisted then m else (a, v) :: m)
    else (a, b) :: Memory.put m k v

/-- `MemWrite(addr, 1, v)` (00_scope.md rule R8). No instruction uses it (20_memory.md rule R27): it is how the host fills
memory before a run (60_exceptions.md rule R81). -/
def Memory.write (m : Memory) (addr v : Byte) : Memory := Memory.put m addr.toNat v

/-- The canonical form: addresses strictly rising and below 256 (20_memory.md rule R23), and no entry equal to what an
unlisted address reads as. -/
abbrev Memory.wf (m : Memory) : Prop :=
  m.Pairwise (fun c d => c.1 < d.1) ∧ ∀ c ∈ m, c.1 < 256 ∧ c.2 ≠ Memory.unlisted

/-- `MEM_INIT` as the spec gives it, a total function from addresses to bytes (10_state.md rule R20), as a memory. -/
def Memory.ofImage (image : Byte → Byte) : Memory :=
  (List.range 256).filterMap fun a =>
    if image (BitVec.ofNat 8 a) = Memory.unlisted then none else some (a, image (BitVec.ofNat 8 a))

/-- `x[i]`, read (00_scope.md rule R8). Neither register is hard-wired (10_state.md rule R10), and reading one that nothing
has written is no fault (rule R21). -/
def State.reg (s : State) : Reg → Byte
  | .r0 => s.r0
  | .r1 => s.r1

/-- `x[i] <- v` (00_scope.md rule R8). -/
def State.setReg (s : State) (r : Reg) (v : Byte) : State :=
  match r with
  | .r0 => { s with r0 := v }
  | .r1 => { s with r1 := v }

/-- `pc <- v` (00_scope.md rule R8). -/
def State.setPc (s : State) (v : Byte) : State := { s with pc := v }

/-- The instruction fetch: the byte at `pc` (20_memory.md rule R24). -/
def fetch (s : State) : Byte := s.mem.read s.pc

/-- `a + 1`, the address of the next sequential instruction, modulo 256 (10_state.md rules R13, R14). DEDUCED, unsafe: the
wrap is the spec's decision D2 (log 2). -/
def State.nextPc (s : State) : Byte := s.pc + 1

/-- How every register-writing instruction ends: `x[ds] <- v`, `pc <- a + 1` (40_arithmetic.md rules R58 to R61, 41_logical.md
rule R63). The value is computed from the state before, so operands are read before the destination is written. -/
def State.retire (s : State) (ds : Reg) (v : Byte) : State := (s.setReg ds v).setPc s.nextPc

/-- `raise` (00_scope.md rule R8, 60_exceptions.md rule R69): the step has no successor. The hardware has no exception
mechanism (rules R68, R75): nothing is saved and no handler runs. -/
def raise (f : Fault) (_ : State) : Host.Outcome State Fault Refusal := .fault f

/-- A reserved opcode raises `IllegalInstruction(a, ir)` with `a` the byte's address (60_exceptions.md rule R70). -/
def raiseIllegal (opcode low : BitVec 4) (s : State) : Host.Outcome State Fault Refusal :=
  raise (.illegalInstruction s.pc (opcode ++ low)) s

/-- An A-Type byte with `extra` not 00 raises `ReservedField(a, ir)` (60_exceptions.md rule R71). -/
def raiseReservedField (ir : Byte) (s : State) : Host.Outcome State Fault Refusal :=
  raise (.reservedField s.pc ir) s

/-- The state a fault leaves: the architectural state as it was, the mark set; a mark once set is never cleared nor replaced
(60_exceptions.md rule R69). -/
def State.markFault (s : State) (f : Fault) : State := { s with faultMark := some (s.faultMark.getD f) }

end Sys2Proof.Machine
end

