-- ==== Sys2Proof/Machine/Operands.lean ====
section
/-! DEFINITION. The operand forms (30_encoding.md rules R43 to R45, 40_arithmetic.md rule R60): a register, a zero-extended
immediate, a byte of memory through a register, a sign-extended offset. -/

namespace Sys2Proof.Machine

/-- `zext_8` of the 3-bit immediate: 0x00 to 0x07, never sign-extended (30_encoding.md rule R44). -/
def zext8 (imm : BitVec 3) : Byte := imm.zeroExtend 8

/-- `sext_8` of the 4-bit offset: -8 to +7 (30_encoding.md rule R45). -/
def sext8 (off : BitVec 4) : Byte := off.signExtend 8

/-- `mem[x[s]]`, register indirect: all 8 bits of the register are the address, and the register is not changed
(40_arithmetic.md rule R60). -/
def State.indirect (s : State) (r : Reg) : Byte := s.mem.read (s.reg r)

end Sys2Proof.Machine
end

