-- ==== Sys2Proof/Machine/Arithmetic.lean ====
section
/-! DEFINITION. The arithmetic instructions ADD, ADDI, ADDM and SUB (40_arithmetic.md rules R58 to R62). -/

namespace Sys2Proof.Machine

/-- ADD (rule R58): `x[ds] <- x[ds] + x[s]`. -/
def execAdd (ds rs : Reg) (s : State) : Host.Outcome State Fault Refusal :=
  .next (s.retire ds (alu .add (s.reg ds) (s.reg rs)))

/-- ADDI (rule R59): `x[ds] <- x[ds] + zext_8(imm)`. -/
def execAddi (ds : Reg) (imm : BitVec 3) (s : State) : Host.Outcome State Fault Refusal :=
  .next (s.retire ds (alu .add (s.reg ds) (zext8 imm)))

/-- ADDM (rule R60): `x[ds] <- x[ds] + mem[x[s]]`, address and addend both from the state before. -/
def execAddm (ds rs : Reg) (s : State) : Host.Outcome State Fault Refusal :=
  .next (s.retire ds (alu .add (s.reg ds) (s.indirect rs)))

/-- SUB (rule R61): `x[ds] <- x[ds] - x[s]`, destination minus source (90_conflicts.md C6). -/
def execSub (ds rs : Reg) (s : State) : Host.Outcome State Fault Refusal :=
  .next (s.retire ds (alu .subtract (s.reg ds) (s.reg rs)))

end Sys2Proof.Machine
end

