-- ==== Sys2Proof/Machine/ControlFlow.lean ====
section
/-! DEFINITION. The control-flow instruction JMP (42_control_flow.md rule R65). -/

namespace Sys2Proof.Machine

/-- JMP (rule R65): `pc <- a + 1 + sext_8(offset)`; the base is the byte after the jump (90_conflicts.md C1; log 15). -/
def execJmp (off : BitVec 4) (s : State) : Host.Outcome State Fault Refusal :=
  .next (s.setPc (alu .add s.nextPc (sext8 off)))

end Sys2Proof.Machine
end

