-- ==== Sys2Proof/Machine/Logical.lean ====
section
/-! DEFINITION. The logical instruction NAND (41_logical.md rule R63). -/

namespace Sys2Proof.Machine

/-- NAND (rule R63): `x[ds] <- ~(x[ds] & x[s])`. -/
def execNand (ds rs : Reg) (s : State) : Host.Outcome State Fault Refusal :=
  .next (s.retire ds (alu .nand (s.reg ds) (s.reg rs)))

end Sys2Proof.Machine
end

