-- ==== Sys2Proof/Machine/Reserved.lean ====
section
/-! DEFINITION. The ten reserved opcodes 0101 to 1110 (30_encoding.md rule R47). Executing one is the model-level fault
`IllegalInstruction(a, ir)`; the proposed meanings are out of scope (00_scope.md rule R3) and never given (log 7). -/

namespace Sys2Proof.Machine

/-- Opcode 0101 (proposed MULT): `IllegalInstruction(a, ir)` (rules R47, R70). -/
def execReserved0101 (low : BitVec 4) (s : State) : Host.Outcome State Fault Refusal :=
  raiseIllegal 0b0101 low s

/-- Opcode 0110 (proposed OR): `IllegalInstruction(a, ir)` (rules R47, R70). -/
def execReserved0110 (low : BitVec 4) (s : State) : Host.Outcome State Fault Refusal :=
  raiseIllegal 0b0110 low s

/-- Opcode 0111 (proposed XOR): `IllegalInstruction(a, ir)` (rules R47, R70). -/
def execReserved0111 (low : BitVec 4) (s : State) : Host.Outcome State Fault Refusal :=
  raiseIllegal 0b0111 low s

/-- Opcode 1000 (proposed SHL): `IllegalInstruction(a, ir)` (rules R47, R70). -/
def execReserved1000 (low : BitVec 4) (s : State) : Host.Outcome State Fault Refusal :=
  raiseIllegal 0b1000 low s

/-- Opcode 1001 (proposed SHR): `IllegalInstruction(a, ir)` (rules R47, R70). -/
def execReserved1001 (low : BitVec 4) (s : State) : Host.Outcome State Fault Refusal :=
  raiseIllegal 0b1001 low s

/-- Opcode 1010 (proposed LOAD): `IllegalInstruction(a, ir)` (rules R47, R70). -/
def execReserved1010 (low : BitVec 4) (s : State) : Host.Outcome State Fault Refusal :=
  raiseIllegal 0b1010 low s

/-- Opcode 1011 (proposed STORE): `IllegalInstruction(a, ir)` (rules R47, R70). -/
def execReserved1011 (low : BitVec 4) (s : State) : Host.Outcome State Fault Refusal :=
  raiseIllegal 0b1011 low s

/-- Opcode 1100 (proposed BEQ): `IllegalInstruction(a, ir)` (rules R47, R70). -/
def execReserved1100 (low : BitVec 4) (s : State) : Host.Outcome State Fault Refusal :=
  raiseIllegal 0b1100 low s

/-- Opcode 1101 (proposed BNE): `IllegalInstruction(a, ir)` (rules R47, R70). -/
def execReserved1101 (low : BitVec 4) (s : State) : Host.Outcome State Fault Refusal :=
  raiseIllegal 0b1101 low s

/-- Opcode 1110 (proposed NOP): `IllegalInstruction(a, ir)` (rules R47, R70). -/
def execReserved1110 (low : BitVec 4) (s : State) : Host.Outcome State Fault Refusal :=
  raiseIllegal 0b1110 low s

end Sys2Proof.Machine
end

