-- ==== Sys2Proof/Machine/Dispatch.lean ====
section
/-! DEFINITION. One arm per row of the opcode table, each one call of the instruction's meaning. -/

namespace Sys2Proof.Machine

def exec (i : Instr) (s : State) : Host.Outcome State Fault Refusal :=
  match i with
  | .nand ds rs => Sys2Proof.Machine.execNand ds rs s
  | .add ds rs => Sys2Proof.Machine.execAdd ds rs s
  | .addm ds rs => Sys2Proof.Machine.execAddm ds rs s
  | .addi ds imm => Sys2Proof.Machine.execAddi ds imm s
  | .sub ds rs => Sys2Proof.Machine.execSub ds rs s
  | .reserved0101 low => Sys2Proof.Machine.execReserved0101 low s
  | .reserved0110 low => Sys2Proof.Machine.execReserved0110 low s
  | .reserved0111 low => Sys2Proof.Machine.execReserved0111 low s
  | .reserved1000 low => Sys2Proof.Machine.execReserved1000 low s
  | .reserved1001 low => Sys2Proof.Machine.execReserved1001 low s
  | .reserved1010 low => Sys2Proof.Machine.execReserved1010 low s
  | .reserved1011 low => Sys2Proof.Machine.execReserved1011 low s
  | .reserved1100 low => Sys2Proof.Machine.execReserved1100 low s
  | .reserved1101 low => Sys2Proof.Machine.execReserved1101 low s
  | .reserved1110 low => Sys2Proof.Machine.execReserved1110 low s
  | .jmp off => Sys2Proof.Machine.execJmp off s

end Sys2Proof.Machine
end

