-- ==== Sys2Proof/Machine/Step.lean ====
section
/-! DEFINITION. The instruction step (30_encoding.md rule R52): fetch the byte at `pc`, decode it, execute it. Each meaning
makes the increment of the PC itself, as each rule's pseudocode shows it, so the step adds nothing around `exec`. -/

namespace Sys2Proof.Machine

/-- One step under a given `A_EXTRA_POLICY` (rules R48, R52). After a fault no further step is taken (60_exceptions.md rule
R69), so a state that carries the mark has no successor. -/
def stepUnder (p : Config.ExtraPolicy) (s : State) : Host.Outcome State Fault Refusal :=
  match s.faultMark with
  | some f => raise f s
  | none =>
    match decode p (fetch s) with
    | .error .reservedExtra => raiseReservedField (fetch s) s
    | .ok i => exec i s

/-- One step of the machine, under the default policy (rule R48, decision D7; log 6). -/
def step (s : State) : Host.Outcome State Fault Refusal := stepUnder aExtraPolicy s

/-- `s` with a table word's byte at `pc` and no fault mark: the host places one byte of `MEM_INIT` before a launch
(60_exceptions.md rule R81; log 18). -/
def State.withFetchWord (s : State) (nbits w : Nat) : State :=
  { s with mem := s.mem.write s.pc (tableByte nbits w), faultMark := none }

end Sys2Proof.Machine
end

