-- ==== Sys2Proof/Assembler.lean ====
section
/-! DEFINITION. The assembler syntax (30_encoding.md rules R53 to R57): a line of text to a source line, a source line to an
instruction. It is no part of the machine. Text is a list of characters. Operands are numbers as the programmer writes
them; an immediate outside 0 to 7 or an offset outside -8 to +7 is refused (rule R54, decision D17; log 17). -/

namespace Sys2Proof.Assembler

/-- A source line, its numbers as written (rule R53). -/
inductive Line where
  | nand (rds rs : Reg)
  | add (rds rs : Reg)
  | addm (rds rs : Reg)
  | addi (rds : Reg) (imm : Int)
  | sub (rds rs : Reg)
  | jmp (offset : Int)
  deriving DecidableEq, Repr

/-- Why a line is refused. -/
inductive Error where
  /-- the text is no line of rule R53 -/
  | notALine
  /-- an immediate outside 0 to 7 (rule R54) -/
  | immediateOutOfRange
  /-- an offset outside -8 to +7 (rule R54) -/
  | offsetOutOfRange
  deriving DecidableEq, Repr

/-- The instruction of a source line (rules R54, R57). -/
def assemble : Line → Except Error Instr
  | .nand rds rs => .ok (.nand rds rs)
  | .add rds rs => .ok (.add rds rs)
  | .addm rds rs => .ok (.addm rds rs)
  | .sub rds rs => .ok (.sub rds rs)
  | .addi rds imm =>
    if 0 ≤ imm ∧ imm ≤ 7 then .ok (.addi rds (BitVec.ofInt 3 imm)) else .error .immediateOutOfRange
  | .jmp off => if -8 ≤ off ∧ off ≤ 7 then .ok (.jmp (BitVec.ofInt 4 off)) else .error .offsetOutOfRange

/-- The source's own assembler instead reduces an immediate modulo 8 (Example 2; rule R54): recorded, not recommended. -/
def sourceAssemblerImmediate (imm : Nat) : BitVec 3 := BitVec.ofNat 3 (imm % 8)

/-- The offset to write in a `jmp` at `a` that is to reach `t`: t - (a + 1), as a signed number (rule R55). -/
def jumpOffset (a t : Byte) : Int := (t - (a + 1)).toInt

/-- Text without white space at either end. DESIGN CHOICE, safe: the source does not say where white space is allowed (91_not_in_source.md
N18; log 17). -/
def trim (cs : List Char) : List Char :=
  ((cs.dropWhile (·.isWhitespace)).reverse.dropWhile (·.isWhitespace)).reverse

/-- Text cut at each comma. -/
def splitCommas : List Char → List (List Char)
  | [] => [[]]
  | c :: cs =>
    match splitCommas cs with
    | [] => [[]]
    | w :: ws => if c = ',' then [] :: w :: ws else (c :: w) :: ws

/-- `r0` or `r1` (rule R53). -/
def parseReg (cs : List Char) : Option Reg :=
  if cs = ['r', '0'] then some .r0 else if cs = ['r', '1'] then some .r1 else none

/-- A decimal number without a sign, at least one digit (rule R53). DESIGN CHOICE, safe: the source does not say whether leading
zeros are allowed (91_not_in_source.md N18), and `addi r0, 05` is taken as `addi r0, 5` (log 17). -/
def parseNat (cs : List Char) : Option Nat :=
  if cs ≠ [] ∧ cs.all (fun c => '0' ≤ c && c ≤ '9') then
    some (cs.foldl (fun n c => 10 * n + (c.toNat - '0'.toNat)) 0)
  else none

/-- A decimal number, bare or with a minus sign that stands at its first digit (rule R53). DESIGN CHOICE, safe: the source does
not say whether a minus sign may stand before zero (91_not_in_source.md N18), and `jmp -0` is taken as `jmp 0` (log 17). -/
def parseInt : List Char → Option Int
  | '-' :: cs => (parseNat cs).map fun n => -(n : Int)
  | cs => (parseNat cs).map fun n => (n : Int)

/-- Two register operands. -/
def parseRegs (mk : Reg → Reg → Line) : List (List Char) → Option Line
  | [a, b] =>
    match parseReg a, parseReg b with
    | some rds, some rs => some (mk rds rs)
    | _, _ => none
  | _ => none

/-- The mnemonic and its operands, without comment (rule R53). -/
def parseCode (mnemonic : List Char) (operands : List (List Char)) : Option Line :=
  if mnemonic = ['n', 'a', 'n', 'd'] then parseRegs .nand operands
  else if mnemonic = ['a', 'd', 'd'] then parseRegs .add operands
  else if mnemonic = ['a', 'd', 'd', 'm'] then parseRegs .addm operands
  else if mnemonic = ['s', 'u', 'b'] then parseRegs .sub operands
  else if mnemonic = ['a', 'd', 'd', 'i'] then
    match operands with
    | [a, b] =>
      match parseReg a, parseNat b with
      | some rds, some imm => some (.addi rds imm)
      | _, _ => none
    | _ => none
  else if mnemonic = ['j', 'm', 'p'] then
    match operands with
    | [a] => (parseInt a).map .jmp
    | _ => none
  else none

/-- One line of text (rule R53): `;` starts a comment that runs to the end of the line, and a line with nothing else on it
holds no instruction (DESIGN CHOICE, safe: log 17). -/
def parse (text : List Char) : Except Error (Option Line) :=
  let code := trim (text.takeWhile (· ≠ ';'))
  if code = [] then .ok none
  else
    let mnemonic := code.takeWhile (fun c => !c.isWhitespace)
    let operands := (splitCommas (code.dropWhile (fun c => !c.isWhitespace))).map trim
    match parseCode mnemonic operands with
    | some l => .ok (some l)
    | none => .error .notALine

/-- A register's name (rule R53). -/
def regText : Reg → List Char
  | .r0 => ['r', '0']
  | .r1 => ['r', '1']

/-- A digit. -/
def digitText (n : Nat) : List Char := [Char.ofNat ('0'.toNat + n)]

/-- The text of an implemented instruction in the form of rule R53: `add r0, r1`, `addi r0, 5`, `jmp -3`. -/
def render : Instr → Option (List Char)
  | .nand ds s => some (['n', 'a', 'n', 'd', ' '] ++ regText ds ++ [',', ' '] ++ regText s)
  | .add ds s => some (['a', 'd', 'd', ' '] ++ regText ds ++ [',', ' '] ++ regText s)
  | .addm ds s => some (['a', 'd', 'd', 'm', ' '] ++ regText ds ++ [',', ' '] ++ regText s)
  | .addi ds imm => some (['a', 'd', 'd', 'i', ' '] ++ regText ds ++ [',', ' '] ++ digitText imm.toNat)
  | .sub ds s => some (['s', 'u', 'b', ' '] ++ regText ds ++ [',', ' '] ++ regText s)
  | .jmp off =>
    if off.toInt < 0 then some (['j', 'm', 'p', ' ', '-'] ++ digitText off.toInt.natAbs)
    else some (['j', 'm', 'p', ' '] ++ digitText off.toNat)
  | .reserved0101 _ | .reserved0110 _ | .reserved0111 _ | .reserved1000 _ | .reserved1001 _ => none
  | .reserved1010 _ | .reserved1011 _ | .reserved1100 _ | .reserved1101 _ | .reserved1110 _ => none

end Sys2Proof.Assembler
end

