-- ==== Sys2Proof/Machine/Micro.lean ====
section
/-! DEFINITION. The cycle tables (70_reset_and_hazards.md rules R89 to R94) as a machine of their own: the internal latches of
10_state.md rule R19, the controller's state counter, and one register transfer per cycle. The instruction step does
not use it; it stands beside the step as the source's other account of the same machine, which the step abstracts
(decision D15, log 12). -/

namespace Sys2Proof.Machine

/-- The control signals the tables name (rules R91, R93). Their meaning is not in the source (91_not_in_source.md N17). -/
inductive Signal where
  | pcOut | pcIn | marIn | memRead | mdrOut | irIn | irOut | xIn | zIn | zOut
  | oneOut | rsOut | rdsOut | rdsIn | alu0 | alu1 | bus | offset
  deriving DecidableEq, Repr

/-- The "Action" column of the tables, one constructor per distinct row (rules R91 to R93). -/
inductive Transfer where
  /-- MAR ← PC -/
  | marFromPc
  /-- MDR ← mem[MAR], Z ← PC + 1 -/
  | mdrFromMemAndZFromPc
  /-- PC ← Z -/
  | pcFromZ
  /-- IR ← MDR -/
  | irFromMdr
  /-- X ← Rsrc -/
  | xFromSrc
  /-- X ← zero-extended IR[2:0] (rule R92) -/
  | xFromImm
  /-- Z ← X op Rdst, `op` the function the instruction selects (rule R94) -/
  | zFromAlu (fn : AluFn)
  /-- Rdst ← Z -/
  | dstFromZ
  /-- MAR ← Rsrc -/
  | marFromSrc
  /-- X ← Rdst -/
  | xFromDst
  /-- MDR ← mem[MAR] -/
  | mdrFromMem
  /-- Z ← X + MDR -/
  | zFromMdr
  /-- X ← PC -/
  | xFromPc
  /-- Z ← X + offset -/
  | zFromOffset
  deriving DecidableEq, Repr

/-- The "Control Signals" column as printed; `none` where the source gives no list (rule R92). -/
def Transfer.signals : Transfer → Option (List Signal)
  | .marFromPc => some [.pcOut, .marIn]
  | .mdrFromMemAndZFromPc => some [.memRead, .zIn, .oneOut, .alu0, .alu1]
  | .pcFromZ => some [.pcIn, .zOut]
  | .irFromMdr => some [.mdrOut, .irIn]
  | .xFromSrc => some [.rsOut, .xIn]
  | .xFromImm => none
  | .zFromAlu _ => some [.rdsOut, .zIn, .alu0, .alu1, .bus]
  | .dstFromZ => some [.rdsIn, .zOut]
  | .marFromSrc => some [.rsOut, .marIn]
  | .xFromDst => some [.rdsOut, .xIn]
  | .mdrFromMem => some [.memRead]
  | .zFromMdr => some [.mdrOut, .zIn, .alu0, .alu1, .bus]
  | .xFromPc => some [.pcOut, .xIn]
  | .zFromOffset => some [.irOut, .zIn, .alu0, .alu1, .offset]

/-- The architectural state with the internal latches and the controller's state counter (10_state.md rule R19). DEDUCED:
the latches are 8 bits wide (log 12). -/
structure Datapath where
  arch : State
  mar : Byte
  mdr : Byte
  ir : Byte
  x : Byte
  z : Byte
  /-- the controller's State: which micro-step is active -/
  state : Nat
  deriving DecidableEq, Repr

/-- One transfer. Rsrc and Rdst are the registers that IR's `s` and `ds` bits select (rule R91). In "Z ← X op Rdst" Rdst is the
left operand: DEDUCED from 90_conflicts.md C6, which has the table give way to SUB's definition (log 14). -/
def Transfer.apply (t : Transfer) (d : Datapath) : Datapath :=
  match t with
  | .marFromPc => { d with mar := d.arch.pc }
  | .mdrFromMemAndZFromPc => { d with mdr := d.arch.mem.read d.mar, z := alu .add d.arch.pc 1 }
  | .pcFromZ => { d with arch := d.arch.setPc d.z }
  | .irFromMdr => { d with ir := d.mdr }
  | .xFromSrc => { d with x := d.arch.reg (sField d.ir) }
  | .xFromImm => { d with x := zext8 (immField d.ir) }
  | .zFromAlu fn => { d with z := alu fn (d.arch.reg (dsField d.ir)) d.x }
  | .dstFromZ => { d with arch := d.arch.setReg (dsField d.ir) d.z }
  | .marFromSrc => { d with mar := d.arch.reg (sField d.ir) }
  | .xFromDst => { d with x := d.arch.reg (dsField d.ir) }
  | .mdrFromMem => { d with mdr := d.arch.mem.read d.mar }
  | .zFromMdr => { d with z := alu .add d.x d.mdr }
  | .xFromPc => { d with x := d.arch.pc }
  | .zFromOffset => { d with z := alu .add d.x (sext8 (lowField d.ir)) }

/-- The standard fetch, controller states 0 to 3, the same for every instruction (rule R91). -/
def fetchPhase : List Transfer := [.marFromPc, .mdrFromMemAndZFromPc, .pcFromZ, .irFromMdr]

/-- The execute phase, controller states from 4 (rules R91 to R93); a reserved opcode has none. -/
def executePhase : Instr → Option (List Transfer)
  | .nand _ _ => some [.xFromSrc, .zFromAlu .nand, .dstFromZ]
  | .add _ _ => some [.xFromSrc, .zFromAlu .add, .dstFromZ]
  | .sub _ _ => some [.xFromSrc, .zFromAlu .subtract, .dstFromZ]
  | .addi _ _ => some [.xFromImm, .zFromAlu .add, .dstFromZ]
  | .addm _ _ => some [.marFromSrc, .xFromDst, .mdrFromMem, .zFromMdr, .dstFromZ]
  | .jmp _ => some [.xFromPc, .zFromOffset, .pcFromZ]
  | .reserved0101 _ | .reserved0110 _ | .reserved0111 _ | .reserved1000 _ | .reserved1001 _ => none
  | .reserved1010 _ | .reserved1011 _ | .reserved1100 _ | .reserved1101 _ | .reserved1110 _ => none

/-- Why a cycle of the datapath has no meaning. -/
inductive MicroRefusal where
  /-- Raised by `cycle` in a controller state the tables do not list, the two undescribed cycles of ADDM among them
  (91_not_in_source.md N20). Safe: no cycle leads there (log 13). -/
  | stateNotTabulated
  deriving DecidableEq, Repr

/-- One clock cycle: the transfer of the active controller state, and the counter's advance, back to 0 after the last listed
state (rule R90). A byte without a meaning faults in state 4, the first after "IR ← MDR"; its address is PC - 1, since state
2 has already incremented the PC (30_encoding.md rule R52; log 12). -/
def Datapath.cycle (p : Config.ExtraPolicy) (d : Datapath) : Host.Outcome Datapath Fault MicroRefusal :=
  match fetchPhase[d.state]? with
  | some t => .next { t.apply d with state := d.state + 1 }
  | none =>
    match decode p d.ir with
    | .error .reservedExtra => .fault (.reservedField (d.arch.pc - 1) d.ir)
    | .ok i =>
      match executePhase i with
      | none => .fault (.illegalInstruction (d.arch.pc - 1) d.ir)
      | some ts =>
        match ts[d.state - 4]? with
        | none => .refused .stateNotTabulated
        | some t => .next { t.apply d with state := if d.state - 4 + 1 = ts.length then 0 else d.state + 1 }

/-- `n` cycles, stopping at the first fault or refusal. -/
def Datapath.cycles (p : Config.ExtraPolicy) : Nat → Datapath → Host.Outcome Datapath Fault MicroRefusal
  | 0, d => .next d
  | n + 1, d =>
    match d.cycle p with
    | .next e => Datapath.cycles p n e
    | .fault f => .fault f
    | .refused r => .refused r

end Sys2Proof.Machine

namespace Sys2Proof

/-- The number of controller states the tables list for an instruction: 7, and 9 for ADDM (rules R91 to R93). -/
def Instr.tabulatedStates (i : Instr) : Option Nat :=
  (Machine.executePhase i).map fun ts => Machine.fetchPhase.length + ts.length

/-- The stated cycle counts, fetch and execute (70_reset_and_hazards.md rule R89): ADDM's 11 is recorded as stated although
its table lists nine (90_conflicts.md C7; log 13). A reserved opcode has none. -/
def Instr.statedCycles : Instr → Option (Nat × Nat)
  | .nand _ _ | .add _ _ | .addi _ _ | .sub _ _ | .jmp _ => some (4, 3)
  | .addm _ _ => some (4, 7)
  | .reserved0101 _ | .reserved0110 _ | .reserved0111 _ | .reserved1000 _ | .reserved1001 _ => none
  | .reserved1010 _ | .reserved1011 _ | .reserved1100 _ | .reserved1101 _ | .reserved1110 _ => none

/-- The stated cycles of a straight run of instructions (rule R95). -/
def straightRunCycles : List Instr → Option Nat
  | [] => some 0
  | i :: is =>
    match i.statedCycles, straightRunCycles is with
    | some (f, e), some n => some (f + e + n)
    | _, _ => none

/-- The instruction is ADDM. -/
def Instr.isAddm : Instr → Bool
  | .addm _ _ => true
  | .nand _ _ | .add _ _ | .addi _ _ | .sub _ _ | .jmp _ => false
  | .reserved0101 _ | .reserved0110 _ | .reserved0111 _ | .reserved1000 _ | .reserved1001 _ => false
  | .reserved1010 _ | .reserved1011 _ | .reserved1100 _ | .reserved1101 _ | .reserved1110 _ => false

end Sys2Proof
end

