-- ==== Sys2Proof/Safety.lean ====
section
/-! DEFINITION. What a run is, when it is halted or complete, and what it leaves (60_exceptions.md rules R69, R79, R81), in the
terms the statements use. -/

namespace Sys2Proof.Machine

/-- `k` steps under a policy, stopping at the first fault or refusal. -/
def runUnder (p : Config.ExtraPolicy) : Nat → State → Host.Outcome State Fault Refusal
  | 0, s => .next s
  | k + 1, s =>
    match stepUnder p s with
    | .next t => runUnder p k t
    | .fault f => .fault f
    | .refused r => .refused r

/-- The state that stands after a step, the fault mark included: the next state, or after a fault the state as it was with
the mark set (rule R69). -/
def State.after (p : Config.ExtraPolicy) (s : State) : State :=
  match stepUnder p s with
  | .next t => t
  | .fault f => s.markFault f
  | .refused _ => s

/-- The state that stands after `k` steps, the fault mark included. -/
def State.afterSteps (p : Config.ExtraPolicy) : Nat → State → State
  | 0, s => s
  | k + 1, s => State.afterSteps p k (s.after p)

/-- Halted: no fault mark, and the byte at `pc` is 0xFF, the instruction `jmp -1` (rule R79, decision D11; log 16). -/
def halted (s : State) : Bool := s.faultMark.isNone && s.mem.read s.pc == 0xFF

/-- The run from `s` is complete: it reaches the halted state `t` (rule R79). -/
def CompletesAt (p : Config.ExtraPolicy) (s t : State) : Prop := ∃ k, runUnder p k s = .next t ∧ halted t = true

/-- What the host observes of a complete run: `(x[0], x[1], pc)` (rules R79, R81). -/
def State.result (s : State) : Byte × Byte × Byte := (s.r0, s.r1, s.pc)

/-- The run from `s` does not terminate: it never faults and never reaches a halted state (rule R79). It is no error of the
machine. -/
def NonTerminating (p : Config.ExtraPolicy) (s : State) : Prop :=
  ∀ k, ∃ t, runUnder p k s = .next t ∧ halted t = false

/-- How the model reports a run (rule R79). -/
inductive RunEnd where
  /-- complete, at this halted state; its result is `State.result` -/
  | complete (t : State)
  /-- the run faults: neither halted nor complete (rule R69) -/
  | faulted (f : Fault)
  /-- the run never halts and never faults -/
  | nonTerminating
  /-- the step gave an instruction no meaning; no run is reported so, since no instruction is refused -/
  | refused (r : Refusal)
  deriving DecidableEq, Repr

/-- The report of a run after at most `k` steps: a run that has neither halted nor faulted by then is reported as
non-terminating. -/
def runEndWithin (p : Config.ExtraPolicy) : Nat → State → RunEnd
  | 0, s => if halted s then .complete s else .nonTerminating
  | k + 1, s =>
    if halted s then .complete s
    else
      match stepUnder p s with
      | .next t => runEndWithin p k t
      | .fault f => .faulted f
      | .refused r => .refused r

/-- The model's report of the run from `s` (rule R79, 95_test_vectors.md program P3). 256 steps decide it: by then a run that has
not halted or faulted has been twice at one of the 256 addresses, and the PC's trajectory does not depend on the registers
(42_control_flow.md rule R66; log 16). -/
def runEnd (p : Config.ExtraPolicy) (s : State) : RunEnd := runEndWithin p 256 s

/-- The invariant of a run: memory in its canonical form, and no fault mark (10_state.md rule R20). -/
abbrev State.Inv (s : State) : Prop := s.mem.wf ∧ s.faultMark = none

/-- Two states that the program counter's trajectory cannot tell apart: they differ in R0 and R1 at most (42_control_flow.md
rule R66). -/
abbrev State.sameControl (s t : State) : Prop := s.pc = t.pc ∧ s.mem = t.mem ∧ s.faultMark = t.faultMark

/-- R0 and R1 exchanged (10_state.md rule R10). -/
def State.swap (s : State) : State := { s with r0 := s.r1, r1 := s.r0 }

end Sys2Proof.Machine
end

