-- ==== Sys2Proof/Certificates/Slice0/Obligations.lean ====
section
/-! DEFINITION. The statements for the provers. Each docstring names the rule of spec/ it formalises, or, where it rests on
a decision or a derivation of the spec (or on a choice of the model), says so and names the log entry. -/

open Sys2Proof Sys2Proof.Machine

/-- Executing `i` at `s` completes: it answers a next state in which register `d` holds the number `v`, the PC is a + 1 modulo
256, and nothing else has changed: not the other register, not one byte of memory, not the fault mark. That the PC wraps at
0xFF is the spec's decision D2 (log 2). -/
def Sys2Proof.Claims.WritesRegister (i : Instr) (s : State) (d : Reg) (v : Nat) : Prop :=
  ∃ t, exec i s = .next t ∧ (t.reg d).toNat = v ∧ t.pc.toNat = (s.pc.toNat + 1) % 256 ∧
    (∀ r, r ≠ d → t.reg r = s.reg r) ∧ (∀ a, t.mem.read a = s.mem.read a) ∧ t.faultMark = s.faultMark

/-- The assembly syntax of `i` (30_encoding.md rule R53): its text reads back as the source line `line`. -/
def Sys2Proof.Claims.HasSyntax (i : Instr) (line : Assembler.Line) : Prop :=
  ∃ text, Assembler.render i = some text ∧ Assembler.parse text = .ok (some line)

/-- The A-Type encoding of the instructions `mk ds s` (30_encoding.md rule R40): with opcode number `op`, select bits `ds` and
`s` and `extra = 00` the byte is `16 op + 8 ds + 4 s`, and it decodes to the instruction under either policy; with another
`extra` it is rejected as a reserved field under `fault` and decodes to the same instruction under `ignore`: both are the
spec's decision D7, DESIGN CHOICE (rule R48, log 6). -/
def Sys2Proof.Claims.ATypeEncoding (op : Nat) (mk : Reg → Reg → Instr) : Prop :=
  ∀ ds s : Reg,
    (encode (mk ds s)).toNat = 16 * op + 8 * ds.bit.toNat + 4 * s.bit.toNat ∧
    (∀ p, decode p (encode (mk ds s)) = .ok (mk ds s)) ∧
    ∀ extra, 0 < extra → extra < 4 →
      decode .fault (encode (mk ds s) + BitVec.ofNat 8 extra) = .error .reservedExtra ∧
      decode .ignore (encode (mk ds s) + BitVec.ofNat 8 extra) = .ok (mk ds s)

/-! ## The six instructions -/

/-- 40_arithmetic.md rule R58: ADD's encoding, syntax, stated cycles, result and frame. The PC's wrap is the spec's decision
D2 (log 2), and what the decoder does with `extra` not 00 under either policy is its decision D7 (log 6). -/
def Obligations.AddWritesSumModulo256 : Prop :=
  Claims.ATypeEncoding 0b0001 .add ∧
  ∀ (ds rs : Reg) (s : State),
    Claims.HasSyntax (.add ds rs) (.add ds rs) ∧ (Instr.add ds rs).statedCycles = some (4, 3) ∧
    Claims.WritesRegister (.add ds rs) s ds (((s.reg ds).toNat + (s.reg rs).toNat) % 256)

/-- 40_arithmetic.md rule R59: ADDI's encoding, syntax, stated cycles, result and frame; every byte 0x30 to 0x3F is a valid
ADDI. The PC's wrap is the spec's decision D2 (log 2). -/
def Obligations.AddiAddsZeroExtendedImmediate : Prop :=
  (∀ (ds : Reg) (imm : BitVec 3) (p : Config.ExtraPolicy),
    (encode (.addi ds imm)).toNat = 0x30 + 8 * ds.bit.toNat + imm.toNat ∧
    decode p (encode (.addi ds imm)) = .ok (.addi ds imm)) ∧
  (∀ (p : Config.ExtraPolicy) (ir : Byte), 0x30 ≤ ir.toNat → ir.toNat ≤ 0x3F →
    ∃ ds imm, decode p ir = .ok (.addi ds imm)) ∧
  ∀ (ds : Reg) (imm : BitVec 3) (s : State),
    Claims.HasSyntax (.addi ds imm) (.addi ds imm.toNat) ∧ (Instr.addi ds imm).statedCycles = some (4, 3) ∧
    Claims.WritesRegister (.addi ds imm) s ds (((s.reg ds).toNat + imm.toNat) % 256)

/-- 40_arithmetic.md rule R60: ADDM's encoding, syntax, stated cycles, result and frame. The address is all 8 bits of the
source register as it was before, the destination itself where ds = s. The PC's wrap is the spec's decision D2 (log 2), and
what the decoder does with `extra` not 00 under either policy is its decision D7 (log 6). -/
def Obligations.AddmAddsByteAtSourceRegister : Prop :=
  Claims.ATypeEncoding 0b0010 .addm ∧
  ∀ (ds rs : Reg) (s : State),
    Claims.HasSyntax (.addm ds rs) (.addm ds rs) ∧ (Instr.addm ds rs).statedCycles = some (4, 7) ∧
    Claims.WritesRegister (.addm ds rs) s ds (((s.reg ds).toNat + (s.mem.read (s.reg rs)).toNat) % 256)

/-- 40_arithmetic.md rule R61: SUB's encoding, syntax, stated cycles, result (destination minus source) and frame. The PC's
wrap is the spec's decision D2 (log 2), and what the decoder does with `extra` not 00 under either policy is its decision D7
(log 6). -/
def Obligations.SubWritesDestinationMinusSource : Prop :=
  Claims.ATypeEncoding 0b0100 .sub ∧
  ∀ (ds rs : Reg) (s : State),
    Claims.HasSyntax (.sub ds rs) (.sub ds rs) ∧ (Instr.sub ds rs).statedCycles = some (4, 3) ∧
    Claims.WritesRegister (.sub ds rs) s ds ((256 + (s.reg ds).toNat - (s.reg rs).toNat) % 256)

/-- 41_logical.md rule R63: NAND's encoding, syntax, stated cycles, result bit by bit, and frame. The PC's wrap is the spec's
decision D2 (log 2), and what the decoder does with `extra` not 00 under either policy is its decision D7 (log 6). -/
def Obligations.NandWritesComplementOfConjunction : Prop :=
  Claims.ATypeEncoding 0b0000 .nand ∧
  ∀ (ds rs : Reg) (s : State),
    Claims.HasSyntax (.nand ds rs) (.nand ds rs) ∧ (Instr.nand ds rs).statedCycles = some (4, 3) ∧
    ∃ v : Byte, Claims.WritesRegister (.nand ds rs) s ds v.toNat ∧
      ∀ b, b < 8 → v.getLsbD b = !((s.reg ds).getLsbD b && (s.reg rs).getLsbD b)

/-- 42_control_flow.md rule R65: JMP's encoding, syntax, stated cycles, target and frame; every byte 0xF0 to 0xFF is a valid
JMP. -/
def Obligations.JmpAddsSignedOffsetToNextAddress : Prop :=
  (∀ (off : BitVec 4) (p : Config.ExtraPolicy),
    ((encode (.jmp off)).toNat : Int) = 0xF0 + off.toInt % 16 ∧ decode p (encode (.jmp off)) = .ok (.jmp off)) ∧
  (∀ (p : Config.ExtraPolicy) (ir : Byte), 0xF0 ≤ ir.toNat → ∃ off, decode p ir = .ok (.jmp off)) ∧
  ∀ (off : BitVec 4) (s : State),
    Claims.HasSyntax (.jmp off) (.jmp off.toInt) ∧ (Instr.jmp off).statedCycles = some (4, 3) ∧
    ∃ t, exec (.jmp off) s = .next t ∧ (t.pc.toNat : Int) = ((s.pc.toNat : Int) + 1 + off.toInt) % 256 ∧
      (∀ r, t.reg r = s.reg r) ∧ (∀ a, t.mem.read a = s.mem.read a) ∧ t.faultMark = s.faultMark

/-- 10_state.md rule R15: "No instruction has a side effect on any state other than its destination register and the PC." The
destination is column "writes" of rule R12 (`Instr.dest`): ds for NAND, ADD, ADDM, ADDI and SUB, none for JMP. -/
def Obligations.OnlyDestinationAndPcChange : Prop :=
  ∀ (i : Instr) (s t : State), exec i s = .next t →
    (∀ r, i.dest ≠ some r → t.reg r = s.reg r) ∧ (∀ a, t.mem.read a = s.mem.read a) ∧ t.mem = s.mem ∧
    t.faultMark = s.faultMark ∧
    (∀ d, i.dest = some d → ∃ v q, t = (s.setReg d v).setPc q) ∧ (i.dest = none → ∃ q, t = s.setPc q)

/-- 10_state.md rule R12, column "reads": what an instruction computes depends on nothing but the registers it reads, the
memory and the PC. -/
def Obligations.ResultDependsOnlyOnSources : Prop :=
  ∀ (i : Instr) (s t s' t' : State), s.pc = t.pc → s.mem = t.mem → (∀ r, r ∈ i.sources → s.reg r = t.reg r) →
    exec i s = .next s' → exec i t = .next t' →
    s'.pc = t'.pc ∧ ∀ d, i.dest = some d → s'.reg d = t'.reg d

/-- 60_exceptions.md rule R68: "The six implemented instructions, with `extra = 00`, always complete": from every state
without a fault mark, whatever the registers, the PC and memory hold, the step at the instruction's byte answers the next
state of the instruction. -/
def Obligations.ImplementedInstructionsAlwaysComplete : Prop :=
  ∀ (p : Config.ExtraPolicy) (i : Instr) (s : State), i.wellFormed = true → s.faultMark = none → fetch s = encode i →
    ∃ t, stepUnder p s = .next t ∧ exec i s = .next t ∧ t.faultMark = none

/-! ## Operands -/

/-- 30_encoding.md rules R44, R45: the operand of ADDI is `ir[2:0]` zero-extended, 0 to 7; the operand of JMP is `ir[3:0]`
sign-extended, -8 to +7. -/
def Obligations.ImmediateZeroExtendsAndOffsetSignExtends : Prop :=
  (∀ (p : Config.ExtraPolicy) (ir : Byte), ir.toNat / 16 = 0b0011 →
    ∃ imm, decode p ir = .ok (.addi (if ir.toNat / 8 % 2 = 0 then .r0 else .r1) imm) ∧ (zext8 imm).toNat = ir.toNat % 8) ∧
  (∀ (p : Config.ExtraPolicy) (ir : Byte), ir.toNat / 16 = 0b1111 →
    ∃ off, decode p ir = .ok (.jmp off) ∧
      (sext8 off).toInt = if ir.toNat % 16 < 8 then (ir.toNat % 16 : Int) else (ir.toNat % 16 : Int) - 16)

/-- 10_state.md rule R10: two registers, selected by one bit, ordinary storage without alias, and both behave identically:
exchanging R0 and R1 in the instruction and in the state exchanges them in the outcome. -/
def Obligations.RegistersAreAlikeOrdinaryStorage : Prop :=
  regOfBit false = .r0 ∧ regOfBit true = .r1 ∧
  (∀ (s : State) (r q : Reg) (v : Byte), (s.setReg r v).reg q = if q = r then v else s.reg q) ∧
  ∀ (i : Instr) (s : State),
    (∀ t, exec i s = .next t → exec i.swap s.swap = .next t.swap) ∧
    (∀ a ir, exec i s = .fault (.illegalInstruction a ir) → exec i.swap s.swap = .fault (.illegalInstruction a ir))

/-! ## Decoding and encoding -/

/-- 30_encoding.md rules R50, R57 (both derived by the spec): under either policy the encoding of every row's instruction
decodes to it, every operand at every value. -/
def Obligations.EveryEncodingDecodesToItsInstruction : Prop :=
  ∀ (p : Config.ExtraPolicy) (i : Instr), decode p (encode i) = .ok i

/-- The other direction (rules R48, R50, R57): under `fault` a byte that decodes is the encoding of what it decodes to; under
`ignore` it is that encoding but for the two `extra` bits of an A-Type byte. -/
def Obligations.EveryDecodedByteIsItsEncoding : Prop :=
  ∀ (ir : Byte) (i : Instr),
    (decode .fault ir = .ok i → encode i = ir) ∧
    (decode .ignore ir = .ok i →
      encode i = if ir.toNat / 16 ∈ [0b0000, 0b0001, 0b0010, 0b0100] then ir &&& 0xFC else ir)

/-- 30_encoding.md rule R51 (derived by the spec): a byte decodes to a row's instruction exactly when its masked bits are the
row's pattern, and no byte is two rows'. -/
def Obligations.OpcodeTableRowsDecideDecoding : Prop :=
  ∀ ir : Byte,
    (∀ row ∈ opcodeTable, (ir &&& row.mask = row.pattern ↔ ∃ i, decode .fault ir = .ok i ∧ i.opcode = row.opcode)) ∧
    ∀ row ∈ opcodeTable, ∀ row' ∈ opcodeTable,
      ir &&& row.mask = row.pattern → ir &&& row'.mask = row'.pattern → row = row'

/-- 95_test_vectors.md section 2.1: over all 256 bytes, 16 decode as A-Type instructions, 16 as ADDI, 16 as JMP, 48 are
reserved-field bytes and 160 reserved opcodes; under `ignore` the 48 are A-Type too. -/
def Obligations.DecodeClassesHaveTheStatedSizes : Prop :=
  let bytes : List Byte := (List.range 256).map (BitVec.ofNat 8)
  let count (p : Config.ExtraPolicy) (c : Except DecodeError Instr → Bool) : Nat := bytes.countP fun ir => c (decode p ir)
  let isA : Except DecodeError Instr → Bool := fun
    | .ok (.nand _ _) | .ok (.add _ _) | .ok (.addm _ _) | .ok (.sub _ _) => true
    | _ => false
  let isAddi : Except DecodeError Instr → Bool := fun
    | .ok (.addi _ _) => true
    | _ => false
  let isJmp : Except DecodeError Instr → Bool := fun
    | .ok (.jmp _) => true
    | _ => false
  let isReserved : Except DecodeError Instr → Bool := fun
    | .ok i => !i.wellFormed
    | .error _ => false
  let isExtra : Except DecodeError Instr → Bool := fun
    | .ok _ => false
    | .error .reservedExtra => true
  count .fault isA = 16 ∧ count .fault isAddi = 16 ∧ count .fault isJmp = 16 ∧ count .fault isExtra = 48 ∧
    count .fault isReserved = 160 ∧ count .ignore isA = 64 ∧ count .ignore isExtra = 0

/-- The encodings printed in the source (95_test_vectors.md sections 1.1 to 1.6), written out bit by bit, with the
instructions as this spec corrects them: beside 0x30 the source prints `addi r0, 16`, and the byte is `addi r0, 0`
(90_conflicts.md C3). -/
def Obligations.SourceEncodingsDecodeAsCorrected : Prop :=
  ∀ w ∈ [((0b00010100 : Byte), Instr.add .r0 .r1), (0b00110101, .addi .r0 5), (0b00111111, .addi .r1 7),
      (0b00110001, .addi .r0 1), (0b00110000, .addi .r0 0), (0b00101000, .addm .r1 .r0), (0b01001000, .sub .r1 .r0),
      (0b00000100, .nand .r0 .r1), (0b11110111, .jmp 0b0111), (0b11111101, .jmp 0b1101), (0b11111110, .jmp 0b1110)],
    decode .fault w.1 = .ok w.2 ∧ encode w.2 = w.1

/-! ## The step and the faults -/

/-- 30_encoding.md rule R52: when the byte at the PC decodes to an instruction, the step is that instruction's execution. The
step adds nothing around it: the meaning itself advances the PC. -/
def Obligations.StepExecutesTheDecodedInstruction : Prop :=
  (∀ (p : Config.ExtraPolicy) (s : State) (i : Instr),
    s.faultMark = none → decode p (s.mem.read s.pc) = .ok i → stepUnder p s = exec i s) ∧
  ∀ (s : State) (i : Instr), s.faultMark = none → decode .fault (s.mem.read s.pc) = .ok i → step s = exec i s

/-- Rules R47, R70 (decision D6, log 7) and spec/opcode_table.json: each of the ten reserved opcodes raises
`IllegalInstruction(a, ir)` with its own address and byte, from every state and with every low nibble. -/
def Obligations.ReservedOpcodesRaiseIllegalInstruction : Prop :=
  ∀ (low : BitVec 4) (s : State),
    ∀ row ∈ [(Instr.reserved0101 low, 0x50), (.reserved0110 low, 0x60), (.reserved0111 low, 0x70),
        (.reserved1000 low, 0x80), (.reserved1001 low, 0x90), (.reserved1010 low, 0xA0), (.reserved1011 low, 0xB0),
        (.reserved1100 low, 0xC0), (.reserved1101 low, 0xD0), (.reserved1110 low, 0xE0)],
      exec row.1 s = .fault (.illegalInstruction s.pc (BitVec.ofNat 8 (row.2 + low.toNat))) ∧
      ∀ p, decode p (BitVec.ofNat 8 (row.2 + low.toNat)) = .ok row.1

/-- Rules R70, R71, R72, R74 (decisions D6, D7; logs 6, 7): from a state without a fault mark the step faults as illegal exactly
on the bytes 0x50 to 0xEF, as a reserved field exactly on the A-Type bytes whose low two bits are not 00 and only under
`fault`, each with the address and the byte; on every other byte it answers a next state; and it never refuses. -/
def Obligations.StepFaultsExactlyOnReservedBytes : Prop :=
  ∀ (p : Config.ExtraPolicy) (s : State), s.faultMark = none →
    (∀ a ir, stepUnder p s = .fault (.illegalInstruction a ir) ↔
      a = s.pc ∧ ir = s.mem.read s.pc ∧ 0x50 ≤ ir.toNat ∧ ir.toNat ≤ 0xEF) ∧
    (∀ a ir, stepUnder p s = .fault (.reservedField a ir) ↔
      p = .fault ∧ a = s.pc ∧ ir = s.mem.read s.pc ∧ ir.toNat / 16 ∈ [0b0000, 0b0001, 0b0010, 0b0100] ∧
        ir.toNat % 4 ≠ 0) ∧
    ((∀ f, stepUnder p s ≠ .fault f) → ∃ t, stepUnder p s = .next t) ∧
    ∀ r, stepUnder p s ≠ .refused r

/-- Rule R48 (decision D7, log 6): under `ignore` an A-Type byte executes exactly as the byte with `extra = 00`, and the two
policies differ on the reserved-field bytes alone. -/
def Obligations.IgnorePolicyExecutesWithExtraCleared : Prop :=
  ∀ s : State, s.faultMark = none →
    ((s.mem.read s.pc).toNat / 16 ∈ [0b0000, 0b0001, 0b0010, 0b0100] →
      ∃ i t, decode .fault (s.mem.read s.pc &&& 0xFC) = .ok i ∧ exec i s = .next t ∧ stepUnder .ignore s = .next t) ∧
    ((∀ a ir, stepUnder .fault s ≠ .fault (.reservedField a ir)) → stepUnder .ignore s = stepUnder .fault s)

/-- Rule R69 (decision D8, log 8): a fault leaves the architectural state as it was, with `pc` the address of the offending
byte, and sets the mark; the mark stays, no further step is taken, and the state is never halted. -/
def Obligations.FaultKeepsStateAndStaysMarked : Prop :=
  ∀ (p : Config.ExtraPolicy) (s : State) (f : Fault), s.faultMark = none → stepUnder p s = .fault f →
    ∀ k, (s.afterSteps p (k + 1)).r0 = s.r0 ∧ (s.afterSteps p (k + 1)).r1 = s.r1 ∧
      (s.afterSteps p (k + 1)).pc = s.pc ∧ (s.afterSteps p (k + 1)).mem = s.mem ∧
      (s.afterSteps p (k + 1)).faultMark = some f ∧ halted (s.afterSteps p (k + 1)) = false ∧
      stepUnder p (s.afterSteps p (k + 1)) = .fault f

/-- Rule R20: no instruction reads the fault mark. -/
def Obligations.FaultMarkIsNotRead : Prop :=
  ∀ (i : Instr) (s : State) (m : Option Fault),
    (∀ t, exec i s = .next t → exec i { s with faultMark := m } = .next { t with faultMark := m }) ∧
    (∀ f, exec i s = .fault f → exec i { s with faultMark := m } = .fault f)

/-! ## Memory -/

/-- 20_memory.md rule R27: "No instruction writes memory." Memory is the same at every step of every run, under either policy,
and after a fault too. -/
def Obligations.MemoryIsConstantThroughEveryRun : Prop :=
  (∀ (i : Instr) (s t : State), exec i s = .next t → t.mem = s.mem) ∧
  ∀ (p : Config.ExtraPolicy) (k : Nat) (s : State),
    (s.afterSteps p k).mem = s.mem ∧ ∀ t, runUnder p k s = .next t → t.mem = s.mem ∧ ∀ a, t.mem.read a = s.mem.read a

/-- Rules R25, R26, R36 (decisions D5, D12; logs 5, 10): in a run from a launch, whatever the registers, the entry point and the
256 bytes of `MEM_INIT`, every read of address `a` at any time returns `MEM_INIT(a)`, and memory is canonical. -/
def Obligations.EveryReadReturnsTheLaunchImage : Prop :=
  ∀ (image : Byte → Byte) (x0 x1 resetPc : Byte) (p : Config.ExtraPolicy) (k : Nat) (t : State),
    runUnder p k (State.launch x0 x1 resetPc (Memory.ofImage image)) = .next t →
    (∀ a, t.mem.read a = image a) ∧ t.Inv

/-- Rule R20: `mem` is a total function from 8-bit addresses to bytes. Every such function is the reading of exactly one
canonical memory, so that equal memories are equal data. -/
def Obligations.EveryImageIsExactlyOneMemory : Prop :=
  ∀ image : Byte → Byte, ∃ m : Memory, (m.wf ∧ ∀ a, m.read a = image a) ∧
    ∀ n : Memory, n.wf → (∀ a, n.read a = image a) → n = m

/-! ## Reset, and the invariant -/

/-- Rules R22, R82 (decision D3, log 3): reset has `pc` = `RESET_PC` = 0x00 and no fault mark. Its registers (log 4) and its
memory (log 5) are the model's choice, said here so that a reader sees them. -/
def Obligations.ResetStartsAtZeroWithoutFault : Prop :=
  State.reset.pc = 0x00 ∧ State.reset.faultMark = none ∧
    State.reset.r0 = 0x00 ∧ State.reset.r1 = 0x00 ∧ State.reset.mem = [] ∧ ∀ a, State.reset.mem.read a = 0x00

/-- Rule R82 (decision D3): from every launch the first action is the fetch of the byte at `RESET_PC`: if it decodes, the first
step executes it. -/
def Obligations.LaunchFetchesAtResetPc : Prop :=
  ∀ (x0 x1 resetPc : Byte) (m : Memory) (i : Instr), decode .fault (m.read resetPc) = .ok i →
    step (State.launch x0 x1 resetPc m) = exec i (State.launch x0 x1 resetPc m)

/-- `State.reset` meets the invariant. That it carries no fault mark is the spec's reset table (10_state.md section 9, rule
R82). That its memory is canonical comes from the model's choice of the empty memory for `State.reset` (log 5, DESIGN CHOICE),
since the spec gives only MEM_INIT. -/
def Obligations.ResetMeetsTheInvariant : Prop := State.reset.Inv

/-- Every step from a state with canonical memory and no fault mark gives such a state (rules R18, R20, R69): a step that
answers a next state sets no mark, and memory keeps its one form. -/
def Obligations.EveryStepKeepsTheInvariant : Prop :=
  (∀ (p : Config.ExtraPolicy) (s t : State), s.Inv → stepUnder p s = .next t → t.Inv) ∧
  ∀ s t : State, s.Inv → step s = .next t → t.Inv

/-! ## Control flow -/

/-- 42_control_flow.md rule R66 (derived by the spec): the sequence of PC values depends on the entry point and memory only,
never on R0 or R1. Two states that differ in R0 and R1 alone run in lockstep for ever: the same PC, the same faults. -/
def Obligations.PcTrajectoryIgnoresRegisters : Prop :=
  ∀ (p : Config.ExtraPolicy) (k : Nat) (s t : State), s.sameControl t →
    (∀ s', runUnder p k s = .next s' → ∃ t', runUnder p k t = .next t' ∧ s'.sameControl t') ∧
    (∀ f, runUnder p k s = .fault f → runUnder p k t = .fault f)

/-- Rule R66 (derived by the spec): the PC trajectory either ends in a fault, within 256 steps, or is eventually periodic: some
PC of the first 257 recurs, and from there on the PC values repeat for ever. -/
def Obligations.TrajectoryFaultsOrIsEventuallyPeriodic : Prop :=
  ∀ (p : Config.ExtraPolicy) (s : State), s.faultMark = none →
    (∃ k f, k ≤ 256 ∧ runUnder p k s = .fault f) ∨
    ∃ n m, n < m ∧ m ≤ 256 ∧
      ∀ j, ∃ t u, runUnder p (n + j) s = .next t ∧ runUnder p (m + j) s = .next u ∧ t.pc = u.pc

/-- Rule R79 (decision D11, log 16): the only instruction that maps a state to itself is `jmp -1`, so the states that recur with
period 1 are the halted ones. -/
def Obligations.StateStepsToItselfExactlyWhenHalted : Prop :=
  ∀ (p : Config.ExtraPolicy) (s : State), stepUnder p s = .next s ↔ halted s = true

/-- Rule R79 (decision D11, log 16): a halted state stands for ever; a run reaches at most one halted state, so a complete run
has one result; and a complete run never faults. -/
def Obligations.CompleteRunHasOneResult : Prop :=
  (∀ (p : Config.ExtraPolicy) (k : Nat) (t : State), halted t = true → runUnder p k t = .next t) ∧
  ∀ (p : Config.ExtraPolicy) (s t : State), CompletesAt p s t →
    (∀ u, CompletesAt p s u → u = t ∧ u.result = t.result) ∧ ∀ k f, runUnder p k s ≠ .fault f

/-- Rule R79 (decision D11, log 16): the model's report of a run is right, for every state and either policy. A run is reported
complete exactly at the halted state it reaches, faulted exactly with the fault it ends in, and non-terminating exactly when it
never faults and never reaches a halted state; no run is reported refused. -/
def Obligations.RunIsReportedAsItEnds : Prop :=
  ∀ (p : Config.ExtraPolicy) (s : State),
    (∀ t, runEnd p s = .complete t ↔ CompletesAt p s t) ∧
    (∀ f, runEnd p s = .faulted f ↔ ∃ k, runUnder p k s = .fault f) ∧
    (runEnd p s = .nonTerminating ↔ NonTerminating p s) ∧
    ∀ r, runEnd p s ≠ .refused r

/-- Rules R55, R66 (the reach derived by the spec): a `jmp` whose offset is `t - (a + 1)` goes from `a` to `t` where that lies
in -8 to +7, and no `jmp` reaches any other target. -/
def Obligations.JumpReachesExactlyOffsetsInRange : Prop :=
  (∀ (s : State) (target : Byte), -8 ≤ Assembler.jumpOffset s.pc target → Assembler.jumpOffset s.pc target ≤ 7 →
    ∃ off t, Assembler.assemble (.jmp (Assembler.jumpOffset s.pc target)) = .ok (.jmp off) ∧
      exec (.jmp off) s = .next t ∧ t.pc = target) ∧
  ∀ (s t : State) (off : BitVec 4), exec (.jmp off) s = .next t →
    Assembler.jumpOffset s.pc t.pc = off.toInt ∧ -8 ≤ off.toInt ∧ off.toInt ≤ 7

/-- Rule R67 (derived by the spec): `jmp 0` only advances the PC, `jmp -1` changes nothing, `jmp -2` goes to the byte before,
`jmp 1` skips one byte. -/
def Obligations.NotableJumpOffsets : Prop :=
  ∀ s : State,
    exec (.jmp 0b0000) s = .next (s.setPc (s.pc + 1)) ∧ exec (.jmp 0b1111) s = .next s ∧
    exec (.jmp 0b1110) s = .next (s.setPc (s.pc - 1)) ∧ exec (.jmp 0b0001) s = .next (s.setPc (s.pc + 2))

/-- 10_state.md rule R14: "No instruction reads PC into a general register". Starting an instruction at another address
changes no register of the outcome, and moves its PC by the same distance. -/
def Obligations.ProgramCounterNeverFlowsIntoRegisters : Prop :=
  ∀ (i : Instr) (s t : State) (a : Byte), exec i s = .next t →
    ∃ u, exec i (s.setPc a) = .next u ∧ (∀ r, u.reg r = t.reg r) ∧ u.mem = t.mem ∧ u.pc - a = t.pc - s.pc

/-! ## Registers at the start, and idioms -/

/-- 70_reset_and_hazards.md rule R85 (derived by the spec): `sub rX, rX` are the only instructions whose result does not
depend on the destination's previous value. -/
def Obligations.OnlySelfSubtractionForgetsItsDestination : Prop :=
  ∀ (i : Instr) (d : Reg), i.dest = some d →
    ((∀ (s t u : State) (v w : Byte), exec i (s.setReg d v) = .next t → exec i (s.setReg d w) = .next u →
      t.reg d = u.reg d) ↔ i = .sub d d)

/-- The idioms of 30_encoding.md rule R56 and 41_logical.md rule R64 (derived by the spec), each as two instructions one after
the other from every state: load a small constant, copy a register, negate, and AND by two NANDs. -/
def Obligations.TwoInstructionIdioms : Prop :=
  let afterBoth (i j : Instr) (s : State) (P : State → Prop) : Prop :=
    ∃ t u, exec i s = .next t ∧ exec j t = .next u ∧ P u
  (∀ (s : State) (d : Reg) (k : BitVec 3), afterBoth (.sub d d) (.addi d k) s fun u => (u.reg d).toNat = k.toNat) ∧
  (∀ (s : State) (d e : Reg), d ≠ e →
    afterBoth (.sub d d) (.add d e) s fun u => u.reg d = s.reg e ∧ u.reg e = s.reg e) ∧
  (∀ (s : State) (d : Reg), afterBoth (.nand d d) (.addi d 1) s fun u => u.reg d = -(s.reg d)) ∧
  ∀ (s : State) (d e : Reg), d ≠ e →
    afterBoth (.nand d e) (.nand d d) s fun u => u.reg d = s.reg d &&& s.reg e ∧ u.reg e = s.reg e

/-! ## The cycle tables -/

/-- 70_reset_and_hazards.md rules R91 to R93, with 10_state.md rule R19 and 30_encoding.md rule R52: running the cycle tables
row by row from controller state 0, whatever the latches hold, carries the architectural state to the step's next state after
exactly the tabulated states (7, and 9 for ADDM) and returns the controller to state 0; and where the step faults, the
datapath reports the same fault in its fifth cycle (the model's choice, log 12). -/
def Obligations.CycleTablesRefineTheStep : Prop :=
  ∀ (p : Config.ExtraPolicy) (s : State) (mar mdr ir x z : Byte), s.faultMark = none →
    (∀ i t, decode p (s.mem.read s.pc) = .ok i → stepUnder p s = .next t →
      ∃ n d, i.tabulatedStates = some n ∧ Datapath.cycles p n ⟨s, mar, mdr, ir, x, z, 0⟩ = .next d ∧
        d.arch = t ∧ d.state = 0 ∧ (n = if i.isAddm then 9 else 7)) ∧
    ∀ f, stepUnder p s = .fault f → Datapath.cycles p 5 ⟨s, mar, mdr, ir, x, z, 0⟩ = .fault f

/-- 70_reset_and_hazards.md rule R95 (derived by the spec): a straight run of n implemented instructions of which m are ADDM
takes 7n + 4m cycles by the stated figures. -/
def Obligations.StraightRunTakesSevenPerInstructionPlusFourPerAddm : Prop :=
  ∀ is : List Instr, (∀ i ∈ is, i.wellFormed = true) →
    straightRunCycles is = some (7 * is.length + 4 * is.countP Instr.isAddm)

/-- 70_reset_and_hazards.md rule R94: the ALU functions that instructions select, with their select lines and values, and which
instruction selects which. (The table's Multiply, which none selects, is left out: log 22.) -/
def Obligations.AluFunctionsAndTheirSelectLines : Prop :=
  AluFn.add.signals = (true, true) ∧ AluFn.subtract.signals = (true, false) ∧ AluFn.nand.signals = (false, false) ∧
  (∀ a b : Byte, (alu .add a b).toNat = (a.toNat + b.toNat) % 256 ∧
    (alu .subtract a b).toNat = (256 + a.toNat - b.toNat) % 256 ∧
    ∀ k, k < 8 → (alu .nand a b).getLsbD k = !(a.getLsbD k && b.getLsbD k)) ∧
  ∀ (ds rs : Reg) (imm : BitVec 3) (fn : AluFn),
    (∀ ts, executePhase (.add ds rs) = some ts → (.zFromAlu fn ∈ ts ↔ fn = .add)) ∧
    (∀ ts, executePhase (.addi ds imm) = some ts → (.zFromAlu fn ∈ ts ↔ fn = .add)) ∧
    (∀ ts, executePhase (.sub ds rs) = some ts → (.zFromAlu fn ∈ ts ↔ fn = .subtract)) ∧
    (∀ ts, executePhase (.nand ds rs) = some ts → (.zFromAlu fn ∈ ts ↔ fn = .nand))

/-! ## The assembler -/

/-- 30_encoding.md rules R53, R57: the text of every implemented instruction in the form of rule R53 parses to a source line
that assembles to the instruction; and `;` starts a comment that runs to the end of the line, on every line of text. -/
def Obligations.AssemblyTextAssemblesToItsInstruction : Prop :=
  (∀ i : Instr, i.wellFormed = true → ∃ text line,
    Assembler.render i = some text ∧ Assembler.parse text = .ok (some line) ∧ Assembler.assemble line = .ok i) ∧
  ∀ text comment : List Char, Assembler.parse (text ++ [';'] ++ comment) = Assembler.parse text

/-- 30_encoding.md rule R54 (refusing instead of truncating is the spec's decision D17, log 17): an immediate assembles
exactly when it is 0 to 7 and an offset exactly when it is -8 to +7, and the field's value is then the number written. -/
def Obligations.AssemblerAcceptsExactlyTheValidRanges : Prop :=
  (∀ (rds : Reg) (imm : Int) (i : Instr), Assembler.assemble (.addi rds imm) = .ok i ↔
    0 ≤ imm ∧ imm ≤ 7 ∧ ∃ k : BitVec 3, i = .addi rds k ∧ (k.toNat : Int) = imm) ∧
  ∀ (off : Int) (i : Instr), Assembler.assemble (.jmp off) = .ok i ↔
    -8 ≤ off ∧ off ≤ 7 ∧ ∃ k : BitVec 4, i = .jmp k ∧ k.toInt = off
end

