-- ==== Sys2Proof/Laws/Assembler.lean ====
section
/-! SUPPORT. The assembler's answer for a line with a number in it, as an equation. -/

namespace Sys2Proof.Assembler

theorem assemble_addi (rds : Reg) (imm : Int) :
    assemble (.addi rds imm) =
      if 0 ≤ imm ∧ imm ≤ 7 then .ok (.addi rds (BitVec.ofInt 3 imm)) else .error .immediateOutOfRange := rfl

theorem assemble_jmp (off : Int) :
    assemble (.jmp off) =
      if -8 ≤ off ∧ off ≤ 7 then .ok (.jmp (BitVec.ofInt 4 off)) else .error .offsetOutOfRange := rfl

end Sys2Proof.Assembler
end

