-- ==== Sys2Proof/Laws/State.lean ====
section
/-! SUPPORT. The small lemmas of the state: one per field per update, so that no proof unfolds a record update. -/

namespace Sys2Proof.Machine

variable (s : State) (r q : Reg) (v w : Byte) (f : Fault)

theorem State.ext_reg {s t : State} (hr : ∀ r, s.reg r = t.reg r) (hpc : s.pc = t.pc) (hm : s.mem = t.mem)
    (hf : s.faultMark = t.faultMark) : s = t := by
  cases s; cases t
  have h0 := hr .r0
  have h1 := hr .r1
  simp_all [State.reg]

@[simp] theorem State.setReg_pc : (s.setReg r v).pc = s.pc := by cases r <;> rfl
@[simp] theorem State.setReg_mem : (s.setReg r v).mem = s.mem := by cases r <;> rfl
@[simp] theorem State.setReg_faultMark : (s.setReg r v).faultMark = s.faultMark := by cases r <;> rfl
@[simp] theorem State.reg_setReg_same : (s.setReg r v).reg r = v := by cases r <;> rfl
@[simp] theorem State.setReg_setReg : (s.setReg r v).setReg r w = s.setReg r w := by cases r <;> rfl
@[simp] theorem State.setReg_reg_self : s.setReg r (s.reg r) = s := by cases r <;> rfl

theorem State.reg_setReg_of_ne (h : q ≠ r) : (s.setReg r v).reg q = s.reg q := by
  cases r <;> cases q <;> first | rfl | exact absurd rfl h

@[simp] theorem State.setPc_pc : (s.setPc v).pc = v := rfl
@[simp] theorem State.setPc_r0 : (s.setPc v).r0 = s.r0 := rfl
@[simp] theorem State.setPc_r1 : (s.setPc v).r1 = s.r1 := rfl
@[simp] theorem State.setPc_mem : (s.setPc v).mem = s.mem := rfl
@[simp] theorem State.setPc_faultMark : (s.setPc v).faultMark = s.faultMark := rfl
@[simp] theorem State.setPc_reg : (s.setPc v).reg r = s.reg r := by cases r <;> rfl

@[simp] theorem State.retire_pc : (s.retire r v).pc = s.pc + 1 := rfl
@[simp] theorem State.retire_mem : (s.retire r v).mem = s.mem := by simp [State.retire]
@[simp] theorem State.retire_faultMark : (s.retire r v).faultMark = s.faultMark := by simp [State.retire]
@[simp] theorem State.retire_reg_same : (s.retire r v).reg r = v := by simp [State.retire]

theorem State.retire_reg_of_ne (h : q ≠ r) : (s.retire r v).reg q = s.reg q := by
  simp [State.retire, State.reg_setReg_of_ne s r q v h]

@[simp] theorem State.markFault_r0 : (s.markFault f).r0 = s.r0 := rfl
@[simp] theorem State.markFault_r1 : (s.markFault f).r1 = s.r1 := rfl
@[simp] theorem State.markFault_pc : (s.markFault f).pc = s.pc := rfl
@[simp] theorem State.markFault_mem : (s.markFault f).mem = s.mem := rfl
@[simp] theorem State.markFault_faultMark : (s.markFault f).faultMark = some (s.faultMark.getD f) := rfl

variable (p : Byte) (m : Memory)

@[simp] theorem State.launch_r0 : (State.launch v w p m).r0 = v := rfl
@[simp] theorem State.launch_r1 : (State.launch v w p m).r1 = w := rfl
@[simp] theorem State.launch_pc : (State.launch v w p m).pc = p := rfl
@[simp] theorem State.launch_mem : (State.launch v w p m).mem = m := rfl
@[simp] theorem State.launch_faultMark : (State.launch v w p m).faultMark = none := rfl

end Sys2Proof.Machine
end

