-- ==== Sys2Proof/Laws/Exec.lean ====
section
/-! SUPPORT. What executing an instruction can do, said once: the meaning of each row as an equation, and one case analysis
over all rows. -/

namespace Sys2Proof.Machine

variable (ds rs : Reg) (imm : BitVec 3) (off low op : BitVec 4) (s : State)

@[simp] theorem exec_nand : exec (.nand ds rs) s = .next (s.retire ds (~~~(s.reg ds &&& s.reg rs))) := rfl
@[simp] theorem exec_add : exec (.add ds rs) s = .next (s.retire ds (s.reg ds + s.reg rs)) := rfl
@[simp] theorem exec_addm : exec (.addm ds rs) s = .next (s.retire ds (s.reg ds + s.mem.read (s.reg rs))) := rfl
@[simp] theorem exec_addi : exec (.addi ds imm) s = .next (s.retire ds (s.reg ds + zext8 imm)) := rfl
@[simp] theorem exec_sub : exec (.sub ds rs) s = .next (s.retire ds (s.reg ds - s.reg rs)) := rfl
@[simp] theorem exec_jmp : exec (.jmp off) s = .next (s.setPc (s.pc + 1 + sext8 off)) := rfl

/-- `raiseIllegal` answers a fault, whatever the state. -/
theorem raiseIllegal_eq : raiseIllegal op low s = .fault (.illegalInstruction s.pc (op ++ low)) := rfl

/-- `raiseReservedField` answers a fault, whatever the state. -/
theorem raiseReservedField_eq (ir : Byte) : raiseReservedField ir s = .fault (.reservedField s.pc ir) := rfl

/-- Everything `exec` can do: write the destination register and advance the PC; set the PC; or fault as illegal. -/
theorem exec_cases (i : Instr) :
    (∃ d v, i.dest = some d ∧ i.wellFormed = true ∧ exec i s = .next (s.retire d v)) ∨
    (∃ off, i = .jmp off ∧ exec i s = .next (s.setPc (s.pc + 1 + sext8 off))) ∨
    (i.dest = none ∧ i.wellFormed = false ∧ exec i s = .fault (.illegalInstruction s.pc (encode i))) := by
  cases i
  case jmp off => exact .inr (.inl ⟨off, rfl, rfl⟩)
  case nand d r => exact .inl ⟨d, _, rfl, rfl, rfl⟩
  case add d r => exact .inl ⟨d, _, rfl, rfl, rfl⟩
  case addm d r => exact .inl ⟨d, _, rfl, rfl, rfl⟩
  case addi d r => exact .inl ⟨d, _, rfl, rfl, rfl⟩
  case sub d r => exact .inl ⟨d, _, rfl, rfl, rfl⟩
  all_goals exact .inr (.inr ⟨rfl, rfl, rfl⟩)

/-- No instruction is refused. -/
theorem exec_ne_refused (i : Instr) (r : Refusal) : exec i s ≠ .refused r := by
  rcases exec_cases s i with ⟨d, v, _, _, h⟩ | ⟨o, _, h⟩ | ⟨_, _, h⟩ <;> rw [h] <;> simp

end Sys2Proof.Machine
end

