-- ==== Sys2Proof/Laws/Memory.lean ====
section
/-! SUPPORT. The laws of memory: what a write changes and leaves, and that every memory operation keeps the canonical form. -/

namespace Sys2Proof.Machine

/-- Reading at a numeric address: `Memory.read` by the address's value. -/
theorem Memory.read_cons (a : Nat) (b : Byte) (m : Memory) (addr : Byte) :
    Memory.read ((a, b) :: m) addr = if a = addr.toNat then b else Memory.read m addr := rfl

/-- An address that no entry lists reads as the unlisted byte. -/
theorem Memory.read_of_unlisted {m : Memory} {addr : Byte} (h : ∀ c ∈ m, c.1 ≠ addr.toNat) :
    m.read addr = Memory.unlisted := by
  induction m with
  | nil => rfl
  | cons c m ih =>
    obtain ⟨a, b⟩ := c
    rw [Memory.read_cons, if_neg (h (a, b) (by simp))]
    exact ih fun c hc => h c (by simp [hc])

/-- A listed address reads as the byte listed, where addresses rise. -/
theorem Memory.read_of_mem {m : Memory} (hw : m.Pairwise (fun c d => c.1 < d.1)) {addr b : Byte}
    (h : (addr.toNat, b) ∈ m) : Memory.read m addr = b := by
  induction m with
  | nil => cases h
  | cons c m ih =>
    obtain ⟨a, b'⟩ := c
    rw [Memory.read_cons]
    rw [List.pairwise_cons] at hw
    rcases List.mem_cons.mp h with h | h
    · cases h; simp
    · have : a < addr.toNat := hw.1 _ h
      rw [if_neg (by omega)]
      exact ih hw.2 h

/-- An entry of a memory after a put is the byte put or an entry from before at another address. -/
theorem Memory.mem_put {m : Memory} {k : Nat} {v : Byte} {c : Host.Cell} (h : c ∈ m.put k v) :
    (c = (k, v) ∧ v ≠ Memory.unlisted) ∨ c ∈ m := by
  induction m with
  | nil => simp only [Memory.put] at h; split at h <;> simp_all
  | cons d m ih =>
    obtain ⟨a, b⟩ := d
    simp only [Memory.put] at h
    split at h
    · split at h <;> simp_all
    · split at h
      · split at h <;> simp_all; tauto
      · rcases List.mem_cons.mp h with h | h
        · simp [h]
        · rcases ih h with h | h
          · exact .inl h
          · exact .inr (by simp [h])

/-- A put keeps addresses rising. -/
theorem Memory.put_pairwise {m : Memory} (hw : m.Pairwise (fun c d => c.1 < d.1)) (k : Nat) (v : Byte) :
    (m.put k v).Pairwise (fun c d => c.1 < d.1) := by
  induction m with
  | nil => simp only [Memory.put]; split <;> simp
  | cons d m ih =>
    obtain ⟨a, b⟩ := d
    rw [List.pairwise_cons] at hw
    simp only [Memory.put]
    split
    · split
      · exact List.pairwise_cons.mpr hw
      · refine List.pairwise_cons.mpr ⟨fun c hc => ?_, List.pairwise_cons.mpr hw⟩
        rcases List.mem_cons.mp hc with rfl | hc
        · assumption
        · have := hw.1 c hc
          simp only at this ⊢
          omega
    · split
      · split
        · exact hw.2
        · exact List.pairwise_cons.mpr hw
      · refine List.pairwise_cons.mpr ⟨fun c hc => ?_, ih hw.2⟩
        rcases Memory.mem_put hc with ⟨rfl, _⟩ | hc
        · simp only; omega
        · exact hw.1 c hc

/-- A write keeps the canonical form. -/
theorem Memory.write_wf {m : Memory} (h : m.wf) (addr v : Byte) : (m.write addr v).wf := by
  refine ⟨Memory.put_pairwise h.1 _ _, fun c hc => ?_⟩
  rcases Memory.mem_put hc with ⟨rfl, hv⟩ | hc
  · exact ⟨addr.isLt, hv⟩
  · exact h.2 c hc

/-- A read after a write: the byte written at its address, the byte from before elsewhere. -/
theorem Memory.read_write {m : Memory} (hw : m.Pairwise (fun c d => c.1 < d.1)) (addr v addr' : Byte) :
    (m.write addr v).read addr' = if addr' = addr then v else m.read addr' := by
  have key : ∀ b : Nat, b = addr'.toNat → (addr' = addr ↔ b = addr.toNat) := by
    rintro _ rfl; exact BitVec.toNat_inj.symm
  unfold Memory.write
  induction m with
  | nil =>
    simp only [Memory.put]
    by_cases hv : v = Memory.unlisted <;> by_cases ha : addr' = addr <;> simp_all [Memory.read, BitVec.toNat_inj, eq_comm]
  | cons d m ih =>
    obtain ⟨a, b⟩ := d
    rw [List.pairwise_cons] at hw
    have tail : addr' = addr → addr.toNat ≤ a → Memory.read m addr' = Memory.unlisted := by
      rintro rfl hle
      refine Memory.read_of_unlisted fun c hc => ?_
      have := hw.1 c hc
      simp only at this
      omega
    simp only [Memory.put]
    split
    · rename_i hlt
      split
      · rename_i hv
        by_cases ha : addr' = addr
        · subst ha; rw [if_pos rfl, Memory.read_cons, if_neg (by omega), tail rfl (by omega), hv]
        · rw [if_neg ha]
      · rw [Memory.read_cons]
        by_cases ha : addr' = addr
        · subst ha; simp
        · rw [if_neg ha, if_neg (by intro h; exact ha (BitVec.toNat_inj.mp h.symm))]
    · split
      · rename_i hk
        subst hk
        split
        · rename_i hv
          by_cases ha : addr' = addr
          · subst ha; rw [if_pos rfl, tail rfl (by omega), hv]
          · rw [if_neg ha, Memory.read_cons, if_neg (by intro h; exact ha (BitVec.toNat_inj.mp h.symm))]
        · rw [Memory.read_cons, Memory.read_cons]
          by_cases ha : addr' = addr
          · subst ha; simp
          · have : addr.toNat ≠ addr'.toNat := fun h => ha (BitVec.toNat_inj.mp h.symm)
            simp [ha, this]
      · rw [Memory.read_cons, Memory.read_cons, ih hw.2]
        by_cases ha : addr' = addr
        · subst ha
          rw [if_pos rfl, if_pos rfl, if_neg (by omega)]
        · rw [if_neg ha, if_neg ha]

/-- The empty memory, which `State.reset` has, is canonical. -/
theorem Memory.nil_wf : Memory.wf [] := by simp [Memory.wf]

/-- An entry of an image's memory. -/
theorem Memory.mem_ofImage {image : Byte → Byte} {c : Host.Cell} :
    c ∈ Memory.ofImage image ↔
      c.1 < 256 ∧ c.2 = image (BitVec.ofNat 8 c.1) ∧ c.2 ≠ Memory.unlisted := by
  obtain ⟨a, b⟩ := c
  simp only [Memory.ofImage, List.mem_filterMap, List.mem_range]
  constructor
  · rintro ⟨k, hk, h⟩
    split at h
    · cases h
    · cases h; exact ⟨hk, rfl, by assumption⟩
  · rintro ⟨ha, hb, hv⟩
    exact ⟨a, ha, by rw [if_neg (hb ▸ hv), ← hb]⟩

/-- The memory of an image is canonical. -/
theorem Memory.ofImage_wf (image : Byte → Byte) : (Memory.ofImage image).wf := by
  refine ⟨?_, fun c hc => ⟨(Memory.mem_ofImage.mp hc).1, (Memory.mem_ofImage.mp hc).2.2⟩⟩
  refine List.Pairwise.filterMap _ ?_ (List.pairwise_lt_range (n := 256))
  intro a a' hlt c hc d hd
  simp only [Option.ite_none_left_eq_some, Option.some.injEq] at hc hd
  rw [← hc.2, ← hd.2]
  exact hlt

/-- The memory of an image reads as the image. -/
theorem Memory.read_ofImage (image : Byte → Byte) (addr : Byte) : (Memory.ofImage image).read addr = image addr := by
  by_cases hv : image addr = Memory.unlisted
  · rw [hv]
    refine Memory.read_of_unlisted fun c hc heq => ?_
    obtain ⟨_, h2, h3⟩ := Memory.mem_ofImage.mp hc
    rw [heq, BitVec.ofNat_toNat, BitVec.setWidth_eq] at h2
    exact h3 (h2.trans hv)
  · refine Memory.read_of_mem (Memory.ofImage_wf image).1 ?_
    rw [Memory.mem_ofImage]
    simp [hv, addr.isLt]

end Sys2Proof.Machine
end

