-- ==== Sys2Proof/Laws/Micro.lean ====
section
/-! SUPPORT. What a cycle of the datapath answers, by controller state. -/

namespace Sys2Proof.Machine

variable {p : Config.ExtraPolicy} {d : Datapath} {t : Transfer}

/-- In a fetch state the cycle is that state's transfer. -/
theorem cycle_of_fetch (h : fetchPhase[d.state]? = some t) :
    d.cycle p = .next { t.apply d with state := d.state + 1 } := by
  unfold Datapath.cycle; rw [h]

/-- In an execute state the cycle is the decoded instruction's transfer; after the last the counter is 0 again. -/
theorem cycle_of_execute {i : Instr} {ts : List Transfer} (hf : fetchPhase[d.state]? = none) (hd : decode p d.ir = .ok i)
    (he : executePhase i = some ts) (ht : ts[d.state - 4]? = some t) :
    d.cycle p = .next { t.apply d with state := if d.state - 4 + 1 = ts.length then 0 else d.state + 1 } := by
  unfold Datapath.cycle; rw [hf]; simp only [hd, he, ht]

end Sys2Proof.Machine
end

