-- ==== Sys2Proof/Laws/PerInstr.lean ====
section
/-! SUPPORT. Statements about every instruction, made constructor by constructor. -/

namespace Sys2Proof.Laws.RowPattern

/-- The instruction's byte lies in its row of the opcode table under either policy: masked, it is the row's pattern, the
opcode with a low nibble of zeros (30_encoding.md rule R51). -/
def Statement (i : Instr) : Prop := ∀ p : Config.ExtraPolicy, encode i &&& i.mask p = i.opcode ++ (0 : BitVec 4)

theorem nand (ds s : Reg) : Statement (.nand ds s) := by
  intro p; cases p <;> cases ds <;> cases s <;> decide

theorem add (ds s : Reg) : Statement (.add ds s) := by
  intro p; cases p <;> cases ds <;> cases s <;> decide

theorem addm (ds s : Reg) : Statement (.addm ds s) := by
  intro p; cases p <;> cases ds <;> cases s <;> decide

theorem addi (ds : Reg) (imm : BitVec 3) : Statement (.addi ds imm) := by
  intro p; cases p <;> cases ds <;> revert imm <;> decide

theorem sub (ds s : Reg) : Statement (.sub ds s) := by
  intro p; cases p <;> cases ds <;> cases s <;> decide

theorem reserved0101 (low : BitVec 4) : Statement (.reserved0101 low) := by
  intro p; cases p <;> revert low <;> decide

theorem reserved0110 (low : BitVec 4) : Statement (.reserved0110 low) := by
  intro p; cases p <;> revert low <;> decide

theorem reserved0111 (low : BitVec 4) : Statement (.reserved0111 low) := by
  intro p; cases p <;> revert low <;> decide

theorem reserved1000 (low : BitVec 4) : Statement (.reserved1000 low) := by
  intro p; cases p <;> revert low <;> decide

theorem reserved1001 (low : BitVec 4) : Statement (.reserved1001 low) := by
  intro p; cases p <;> revert low <;> decide

theorem reserved1010 (low : BitVec 4) : Statement (.reserved1010 low) := by
  intro p; cases p <;> revert low <;> decide

theorem reserved1011 (low : BitVec 4) : Statement (.reserved1011 low) := by
  intro p; cases p <;> revert low <;> decide

theorem reserved1100 (low : BitVec 4) : Statement (.reserved1100 low) := by
  intro p; cases p <;> revert low <;> decide

theorem reserved1101 (low : BitVec 4) : Statement (.reserved1101 low) := by
  intro p; cases p <;> revert low <;> decide

theorem reserved1110 (low : BitVec 4) : Statement (.reserved1110 low) := by
  intro p; cases p <;> revert low <;> decide

theorem jmp (off : BitVec 4) : Statement (.jmp off) := by
  intro p; cases p <;> revert off <;> decide

end Sys2Proof.Laws.RowPattern
end

