-- ==== Sys2Proof/Laws/Run.lean ====
section
/-! SUPPORT. Runs: the host's run of the core is `runUnder` the default policy, and how runs compose. -/

namespace Sys2Proof.Machine

/-- One step of the host's run of any machine. -/
theorem host_run_succ (M : Host.Core) (k : Nat) (s : M.State) :
    M.run (k + 1) s =
      match M.step s with
      | .next t => M.run k t
      | .fault f => .fault f
      | .refused r => .refused r := rfl

/-- The host's run of this machine. -/
theorem core_run_eq (k : Nat) (s : State) : Host.Core.run Sys2Proof.core k s = runUnder aExtraPolicy k s := by
  induction k generalizing s with
  | zero => rfl
  | succ k ih =>
    have hstep : core.step s = stepUnder aExtraPolicy s := rfl
    refine (host_run_succ Sys2Proof.core k s).trans ?_
    rw [runUnder, hstep]
    generalize stepUnder aExtraPolicy s = o
    cases o with
    | next t => exact ih t
    | fault f => rfl
    | refused r => rfl

/-- A run of `k + j` steps is a run of `k` and then one of `j`. -/
theorem runUnder_add (p : Config.ExtraPolicy) (k j : Nat) (s t : State) (h : runUnder p k s = .next t) :
    runUnder p (k + j) s = runUnder p j t := by
  induction k generalizing s with
  | zero => cases h; rw [Nat.zero_add]
  | succ k ih =>
    rw [Nat.succ_add]
    simp only [runUnder] at h ⊢
    cases hs : stepUnder p s with
    | next u => rw [hs] at h; exact ih u h
    | fault f => rw [hs] at h; cases h
    | refused r => rw [hs] at h; cases h

/-- Everything `runEndWithin` can answer: what it reports was reached within its steps, and where it reports a run as
non-terminating, none of these steps faulted or met a halted state. -/
theorem runEndWithin_cases (p : Config.ExtraPolicy) (n : Nat) (s : State) :
    (∃ t k, k ≤ n ∧ runEndWithin p n s = .complete t ∧ runUnder p k s = .next t ∧ halted t = true) ∨
    (∃ f k, k ≤ n ∧ runEndWithin p n s = .faulted f ∧ runUnder p k s = .fault f) ∨
    (runEndWithin p n s = .nonTerminating ∧ ∀ k, k ≤ n → ∃ t, runUnder p k s = .next t ∧ halted t = false) ∨
    (∃ r k, k ≤ n ∧ runEndWithin p n s = .refused r ∧ runUnder p k s = .refused r) := by
  have halts : ∀ (n : Nat) (s : State), halted s = true → runEndWithin p n s = .complete s := by
    intro n s h; cases n <;> simp [runEndWithin, h]
  induction n generalizing s with
  | zero =>
    cases h : halted s with
    | true => exact .inl ⟨s, 0, Nat.le_refl 0, halts 0 s h, rfl, h⟩
    | false =>
      refine .inr (.inr (.inl ⟨by simp [runEndWithin, h], fun k hk => ?_⟩))
      obtain rfl := Nat.le_zero.mp hk
      exact ⟨s, rfl, h⟩
  | succ n ih =>
    cases h : halted s with
    | true => exact .inl ⟨s, 0, Nat.zero_le _, halts _ s h, rfl, h⟩
    | false =>
      simp only [runEndWithin, h, Bool.false_eq_true, if_false]
      cases hs : stepUnder p s with
      | fault f => exact .inr (.inl ⟨f, 1, by omega, rfl, by simp [runUnder, hs]⟩)
      | refused r => exact .inr (.inr (.inr ⟨r, 1, by omega, rfl, by simp [runUnder, hs]⟩))
      | next u =>
        have run_succ : ∀ k, runUnder p (k + 1) s = runUnder p k u := fun k => by rw [runUnder, hs]
        rcases ih u with ⟨t, k, hk, he, hr, ht⟩ | ⟨f, k, hk, he, hr⟩ | ⟨he, hn⟩ | ⟨r, k, hk, he, hr⟩
        · exact .inl ⟨t, k + 1, by omega, he, (run_succ k).trans hr, ht⟩
        · exact .inr (.inl ⟨f, k + 1, by omega, he, (run_succ k).trans hr⟩)
        · refine .inr (.inr (.inl ⟨he, fun k hk => ?_⟩))
          cases k with
          | zero => exact ⟨s, rfl, h⟩
          | succ k => rw [run_succ]; exact hn k (by omega)
        · exact .inr (.inr (.inr ⟨r, k + 1, by omega, he, (run_succ k).trans hr⟩))

end Sys2Proof.Machine
end

