-- ==== Sys2Proof/Tests/Slice0.lean ====
section
/-! SUPPORT. Tests. Expected results are spec/95_test_vectors.md's, or worked out by hand from the rule named; each test is one
step on a small state. After them, for each obligation with hypotheses, a state and operands that meet all of them. -/

namespace Sys2Proof.Tests

open Sys2Proof Sys2Proof.Machine

/-- A launch at `a` with the given registers and bytes of memory. -/
def place (x0 x1 a : Byte) (bytes : List (Byte × Byte)) : State :=
  State.launch x0 x1 a (bytes.foldl (fun m c => Memory.write m c.1 c.2) [])

/-- The result `(R0, R1, PC)` of a step that answers a next state. -/
def landed (o : Host.Outcome State Fault Refusal) : Option (Byte × Byte × Byte) :=
  match o with
  | .next t => some t.result
  | .fault _ | .refused _ => none

/-- The fault of a step that faults. -/
def faultOf (o : Host.Outcome State Fault Refusal) : Option Fault :=
  match o with
  | .fault f => some f
  | .next _ | .refused _ => none

/-! ## Well-formedness: each reserved row is refused, each implemented row accepted (00_scope.md rules R2, R3) -/

theorem test_wellFormed_refuses_reserved :
    ∀ i ∈ [Instr.reserved0101 0, .reserved0110 1, .reserved0111 2, .reserved1000 3, .reserved1001 4,
      .reserved1010 5, .reserved1011 6, .reserved1100 7, .reserved1101 8, .reserved1110 9], i.wellFormed = false := by
  decide

theorem test_wellFormed_accepts_implemented :
    ∀ i ∈ [Instr.nand .r0 .r1, .add .r1 .r0, .addm .r0 .r0, .addi .r1 7, .sub .r1 .r1, .jmp 15], i.wellFormed = true := by
  decide

/-! ## Decoding: words written out bit by bit from 30_encoding.md rules R40 to R47, every constructor -/

theorem test_decode_aType_words :
    ∀ w ∈ [((0b0000_0_1_00 : Byte), Instr.nand .r0 .r1), (0b0000_1_0_00, .nand .r1 .r0), (0b0001_0_1_00, .add .r0 .r1),
      (0b0001_1_1_00, .add .r1 .r1), (0b0010_1_0_00, .addm .r1 .r0), (0b0010_0_0_00, .addm .r0 .r0),
      (0b0100_1_0_00, .sub .r1 .r0), (0b0100_0_1_00, .sub .r0 .r1)],
      decode .fault w.1 = .ok w.2 ∧ decode .ignore w.1 = .ok w.2 := by
  decide

theorem test_decode_bType_and_cType_words :
    ∀ w ∈ [((0b0011_0_101 : Byte), Instr.addi .r0 5), (0b0011_1_111, .addi .r1 7), (0b0011_1_000, .addi .r1 0),
      (0b1111_0111, .jmp 0b0111), (0b1111_1101, .jmp 0b1101), (0b1111_1000, .jmp 0b1000), (0b1111_0000, .jmp 0)],
      decode .fault w.1 = .ok w.2 := by
  decide

theorem test_decode_reserved_words :
    ∀ w ∈ [((0b0101_0000 : Byte), Instr.reserved0101 0), (0b0110_0000, .reserved0110 0), (0b0111_1111, .reserved0111 15),
      (0b1000_0000, .reserved1000 0), (0b1001_1010, .reserved1001 10), (0b1010_0000, .reserved1010 0),
      (0b1011_0111, .reserved1011 7), (0b1100_0000, .reserved1100 0), (0b1101_1110, .reserved1101 14),
      (0b1110_1111, .reserved1110 15)],
      decode .fault w.1 = .ok w.2 := by
  decide

/-- 95_test_vectors.md section 2.1, second table: reserved-field bytes. -/
theorem test_decode_reserved_field :
    ∀ w ∈ [((0x01 : Byte), Instr.nand .r0 .r0), (0x02, .nand .r0 .r0), (0x03, .nand .r0 .r0), (0x15, .add .r0 .r1),
      (0x2A, .addm .r1 .r0), (0x4F, .sub .r1 .r1)],
      decode .fault w.1 = .error .reservedExtra ∧ decode .ignore w.1 = .ok w.2 := by
  decide

/-- 30_encoding.md rule R57, "Checked against every encoding in the source". -/
theorem test_encode_source_encodings :
    [encode (.add .r0 .r1), encode (.addi .r0 5), encode (.addi .r1 7), encode (.addm .r1 .r0), encode (.sub .r1 .r0),
      encode (.nand .r0 .r1), encode (.jmp 7), encode (.jmp 0b1101), encode (.jmp 0b1110)]
      = [0x14, 0x35, 0x3F, 0x28, 0x48, 0x04, 0xF7, 0xFD, 0xFE] := by
  decide

/-- Each row's "match" word of spec/opcode_table.json runs as the first instruction after reset. -/
theorem test_table_word_is_fetched :
    ∀ w ∈ [0x00, 0x10, 0x20, 0x30, 0x40, 0x50, 0x60, 0x70, 0x80, 0x90, 0xA0, 0xB0, 0xC0, 0xD0, 0xE0, 0xF0],
      fetch (State.reset.withFetchWord 8 w) = BitVec.ofNat 8 w ∧
      (decodeTableWord 8 w).map encode = some (BitVec.ofNat 8 w) := by
  decide

theorem test_table_words_run_or_fault :
    landed (step (State.reset.withFetchWord 8 0x35)) = some (5, 0, 1) ∧
    faultOf (step (State.reset.withFetchWord 8 0x5C)) = some (.illegalInstruction 0 0x5C) := by
  decide

/-! ## The opcode table: no two rows overlap, and no byte is left out -/

theorem test_opcode_rows_disjoint :
    opcodeTable.Pairwise fun r r' => (r.pattern ^^^ r'.pattern) &&& (r.mask &&& r'.mask) ≠ 0 := by
  decide

/-! ## Instructions (95_test_vectors.md sections 2.2 to 2.8) -/

theorem test_add_wraps : landed (step (place 0xC8 0x64 0x20 [(0x20, 0x14)])) = some (0x2C, 0x64, 0x21) := by decide
theorem test_add_doubles_r1 : landed (step (place 0x99 0xFF 0x20 [(0x20, 0x1C)])) = some (0x99, 0xFE, 0x21) := by decide
theorem test_addi_imm_is_unsigned : landed (step (place 0xFC 0x55 0x20 [(0x20, 0x37)])) = some (0x03, 0x55, 0x21) := by
  decide
theorem test_addi_zero_does_not_clear : landed (step (place 0xA5 0x42 0x20 [(0x20, 0x30)])) = some (0xA5, 0x42, 0x21) := by
  decide
theorem test_addm_highest_address :
    landed (step (place 0xFF 0x02 0x05 [(0x05, 0x28), (0xFF, 0x03)])) = some (0xFF, 0x05, 0x06) := by decide
theorem test_addm_same_register :
    landed (step (place 0x30 0x77 0x05 [(0x05, 0x20), (0x30, 0x12)])) = some (0x42, 0x77, 0x06) := by decide
theorem test_sub_operand_order : landed (step (place 0x07 0x05 0x20 [(0x20, 0x48)])) = some (0x07, 0xFE, 0x21) := by
  decide
theorem test_sub_clears : landed (step (place 0xA5 0x3C 0x20 [(0x20, 0x4C)])) = some (0xA5, 0x00, 0x21) := by decide
theorem test_nand_plain : landed (step (place 0xCC 0xAA 0x20 [(0x20, 0x04)])) = some (0x77, 0xAA, 0x21) := by decide
theorem test_nand_wraps_pc : landed (step (place 0x0F 0x33 0xFF [(0xFF, 0x00)])) = some (0xF0, 0x33, 0x00) := by decide
theorem test_jmp_forward_wraps : landed (step (place 0x11 0x22 0xFC [(0xFC, 0xF7)])) = some (0x11, 0x22, 0x04) := by
  decide
theorem test_jmp_backward_wraps : landed (step (place 0x11 0x22 0x02 [(0x02, 0xF8)])) = some (0x11, 0x22, 0xFB) := by
  decide

/-! ## Faults (95_test_vectors.md section 2.9) -/

theorem test_reserved_rows_fault :
    ∀ b ∈ [(0x50 : Byte), 0x6A, 0x7F, 0x80, 0x9A, 0xA0, 0xB3, 0xC0, 0xDE, 0xE0, 0xEF],
      faultOf (step (place 0 0x34 0x7F [(0x7F, b)])) = some (.illegalInstruction 0x7F b) := by
  decide
theorem test_neighbours_of_reserved :
    faultOf (step (place 0 0x34 1 [(1, 0x4F)])) = some (.reservedField 1 0x4F) ∧
    landed (step (place 0 0x34 1 [(1, 0xF0)])) = some (0, 0x34, 2) := by decide
theorem test_reserved_field_policies :
    faultOf (stepUnder .fault (place 0 0x34 1 [(1, 0x15)])) = some (.reservedField 1 0x15) ∧
    landed (stepUnder .ignore (place 0 0x34 1 [(1, 0x15)])) = some (0x34, 0x34, 2) := by decide
theorem test_fault_marks_and_stays :
    ((place 0x12 0x34 0 [(0, 0xE0)]).afterSteps .fault 3) =
      { place 0x12 0x34 0 [(0, 0xE0)] with faultMark := some (.illegalInstruction 0 0xE0) } := by decide

/-! ## Memory -/

theorem test_memory_wf_refuses : ¬ Memory.wf [(5, 1), (5, 2)] ∧ ¬ Memory.wf [(256, 1)] ∧ ¬ Memory.wf [(5, 0)] := by decide
theorem test_memory_write_removes : Memory.write [(5, 1), (7, 2)] 5 0 = [(7, 2)] := by decide

/-! ## The cycle tables -/

/-- SUB in the datapath is destination minus source (90_conflicts.md C6); the latches hold arbitrary values before. -/
theorem test_datapath_sub :
    (match Datapath.cycles .fault 7 ⟨place 0x07 0x05 0x20 [(0x20, 0x44)], 9, 8, 7, 6, 5, 0⟩ with
      | .next d => some (d.arch.result, d.state)
      | .fault _ | .refused _ => none) = some ((0x02, 0x05, 0x21), 0) := by decide

/-- ADDM comes back to state 0 after the nine tabulated states. -/
theorem test_datapath_addm :
    (match Datapath.cycles .fault 9 ⟨place 0x10 0x01 0x05 [(0x05, 0x28), (0x10, 0xFF)], 9, 8, 7, 6, 5, 0⟩ with
      | .next d => some (d.arch.result, d.state)
      | .fault _ | .refused _ => none) = some ((0x10, 0x00, 0x06), 0) := by decide

/-! ## The assembler (30_encoding.md rules R53, R54) -/

theorem test_parse_jmp_with_comment :
    Assembler.parse [' ', 'j', 'm', 'p', ' ', '-', '3', ' ', ';', ' ', 'x'] = .ok (some (.jmp (-3))) := by decide
theorem test_parse_two_spaces :
    Assembler.parse ['a', 'd', 'd', ' ', ' ', 'r', '0', ',', ' ', 'r', '1'] = .ok (some (.add .r0 .r1)) := by decide
/-- The model's choice where the source is silent (log 17): leading zeros, and a minus sign before zero. -/
theorem test_parse_leading_zero_and_minus_zero :
    Assembler.parse ['a', 'd', 'd', 'i', ' ', 'r', '0', ',', '0', '5'] = .ok (some (.addi .r0 5)) ∧
    Assembler.parse ['j', 'm', 'p', ' ', '-', '0'] = .ok (some (.jmp 0)) := by decide
theorem test_assemble_refuses_sixteen :
    Assembler.assemble (.addi .r0 16) = .error .immediateOutOfRange ∧ Assembler.sourceAssemblerImmediate 16 = 0 ∧
    Assembler.assemble (.jmp 8) = .error .offsetOutOfRange := by decide

/-! ## Witnesses: for each obligation with hypotheses, values that meet all of them -/

/-- AddWritesSumModulo256 and its siblings: every `extra` that is not 00 is in the range of `ATypeEncoding`. -/
theorem witness_ATypeEncoding : (0 < 1 ∧ 1 < 4) ∧ (0 < 3 ∧ 3 < 4) := by decide
theorem witness_AddiAddsZeroExtendedImmediate :
    (0x30 ≤ (0x30 : Byte).toNat ∧ (0x30 : Byte).toNat ≤ 0x3F) ∧ (0x30 ≤ (0x3F : Byte).toNat ∧ (0x3F : Byte).toNat ≤ 0x3F) := by
  decide
theorem witness_JmpAddsSignedOffsetToNextAddress : 0xF0 ≤ (0xF0 : Byte).toNat ∧ 0xF0 ≤ (0xFF : Byte).toNat := by decide
theorem witness_OnlyDestinationAndPcChange :
    exec (.add .r0 .r1) (place 5 7 0 []) = .next (place 12 7 1 []) ∧ (Instr.add .r0 .r1).dest ≠ some .r1 ∧
    (Instr.add .r0 .r1).dest = some .r0 ∧
    exec (.jmp 0b1111) (place 5 7 0 []) = .next (place 5 7 0 []) ∧ (Instr.jmp 0b1111).dest = none :=
  ⟨rfl, by decide, rfl, rfl, rfl⟩
theorem witness_ResultDependsOnlyOnSources :
    (place 5 7 0 []).pc = (place 5 8 0 []).pc ∧ (place 5 7 0 []).mem = (place 5 8 0 []).mem ∧
    (∀ r, r ∈ (Instr.addi .r0 1).sources → (place 5 7 0 []).reg r = (place 5 8 0 []).reg r) ∧
    exec (.addi .r0 1) (place 5 7 0 []) = .next (place 6 7 1 []) ∧
    exec (.addi .r0 1) (place 5 8 0 []) = .next (place 6 8 1 []) ∧ (Instr.addi .r0 1).dest = some .r0 := by
  refine ⟨rfl, rfl, fun r hr => ?_, rfl, rfl, rfl⟩
  simp only [Instr.sources, List.mem_singleton] at hr
  subst hr; rfl
theorem witness_ImplementedInstructionsAlwaysComplete :
    (Instr.addm .r1 .r0).wellFormed = true ∧ (place 0x10 0 5 [(5, 0x28)]).faultMark = none ∧
    fetch (place 0x10 0 5 [(5, 0x28)]) = encode (.addm .r1 .r0) := by decide
theorem witness_ImmediateZeroExtendsAndOffsetSignExtends :
    (0x37 : Byte).toNat / 16 = 0b0011 ∧ (0x38 : Byte).toNat / 16 = 0b0011 ∧ (0xF7 : Byte).toNat / 16 = 0b1111 ∧
    (0xF8 : Byte).toNat / 16 = 0b1111 := by decide
theorem witness_RegistersAreAlikeOrdinaryStorage :
    exec (.sub .r0 .r1) (place 5 7 0 []) = .next (place 0xFE 7 1 []) ∧
    exec (.reserved0101 3) (place 5 7 9 []) = .fault (.illegalInstruction 9 0x53) := ⟨rfl, rfl⟩
theorem witness_EveryDecodedByteIsItsEncoding :
    decode .fault 0x3F = .ok (.addi .r1 7) ∧ decode .ignore 0x3F = .ok (.addi .r1 7) ∧
    decode .ignore 0x15 = .ok (.add .r0 .r1) := by decide
theorem witness_OpcodeTableRowsDecideDecoding :
    (⟨0b0100, 0x40, 0xF3⟩ : OpcodeRow) ∈ opcodeTable ∧ (0x4C : Byte) &&& 0xF3 = 0x40 := by decide
theorem witness_StepExecutesTheDecodedInstruction :
    (place 5 7 0 [(0, 0x14)]).faultMark = none ∧
    decode .fault ((place 5 7 0 [(0, 0x14)]).mem.read (place 5 7 0 [(0, 0x14)]).pc) = .ok (.add .r0 .r1) := by decide
theorem witness_ReservedOpcodesRaiseIllegalInstruction :
    exec (.reserved0101 0) (place 1 2 3 []) = .fault (.illegalInstruction 3 0x50) ∧
    exec (.reserved1110 15) (place 1 2 3 []) = .fault (.illegalInstruction 3 0xEF) := ⟨rfl, rfl⟩
/-- A state at each boundary of each clause: 0x50 and 0xEF illegal, 0x4F and 0x01 reserved fields, 0xF0 and 0x4C next states. -/
theorem witness_StepFaultsExactlyOnReservedBytes :
    (place 0 0 0 [(0, 0x50)]).faultMark = none ∧
    faultOf (step (place 0 0 0 [(0, 0x50)])) = some (.illegalInstruction 0 0x50) ∧
    faultOf (step (place 0 0 0 [(0, 0xEF)])) = some (.illegalInstruction 0 0xEF) ∧
    faultOf (step (place 0 0 0 [(0, 0x4F)])) = some (.reservedField 0 0x4F) ∧
    faultOf (step (place 0 0 0 [(0, 0x01)])) = some (.reservedField 0 0x01) ∧
    landed (step (place 0 0 0 [(0, 0xF0)])) = some (0, 0, 1) ∧
    landed (step (place 0 0 0 [(0, 0x4C)])) = some (0, 0, 1) := by decide
theorem witness_IgnorePolicyExecutesWithExtraCleared :
    (place 0 0x34 1 [(1, 0x15)]).faultMark = none ∧
    ((place 0 0x34 1 [(1, 0x15)]).mem.read 1).toNat / 16 ∈ [0b0000, 0b0001, 0b0010, 0b0100] ∧
    (place 0 0 0 [(0, 0xF0)]).faultMark = none ∧ faultOf (stepUnder .fault (place 0 0 0 [(0, 0xF0)])) = none := by decide
theorem witness_FaultKeepsStateAndStaysMarked :
    (place 1 2 1 [(1, 0x50)]).faultMark = none ∧
    stepUnder .fault (place 1 2 1 [(1, 0x50)]) = .fault (.illegalInstruction 1 0x50) := ⟨rfl, rfl⟩
theorem witness_FaultMarkIsNotRead :
    exec (.addi .r0 1) (place 5 7 0 []) = .next (place 6 7 1 []) ∧
    exec (.reserved1010 0) (place 5 7 0 []) = .fault (.illegalInstruction 0 0xA0) := ⟨rfl, rfl⟩
theorem witness_MemoryIsConstantThroughEveryRun :
    exec (.addm .r0 .r0) (place 1 0 0 [(1, 3)]) = .next (place 4 0 1 [(1, 3)]) ∧
    runUnder .fault 2 (place 0 0 0 [(0, 0x31), (1, 0xFE)]) = .next (place 1 0 0 [(0, 0x31), (1, 0xFE)]) := ⟨rfl, rfl⟩
/-- The image whose byte at each address is 0xFF: a step from it stays where it is (95_test_vectors.md program P7). -/
theorem witness_EveryReadReturnsTheLaunchImage :
    ∃ t, runUnder .fault 1 (State.launch 1 2 0xFF (Memory.ofImage fun _ => 0xFF)) = .next t := by
  refine ⟨State.launch 1 2 0xFF (Memory.ofImage fun _ => 0xFF), ?_⟩
  simp only [runUnder, stepUnder, State.launch, fetch, Memory.read_ofImage]
  rfl
theorem witness_EveryImageIsExactlyOneMemory :
    Memory.wf (Memory.ofImage fun a => a + 1) ∧ ∀ a, (Memory.ofImage fun a => a + 1).read a = a + 1 :=
  ⟨Memory.ofImage_wf _, Memory.read_ofImage _⟩
theorem witness_LaunchFetchesAtResetPc :
    decode .fault (Memory.read [(0x80, 0x3F)] 0x80) = .ok (.addi .r1 7) := by decide
theorem witness_EveryStepKeepsTheInvariant :
    (place 5 7 0 [(0, 0x14)]).Inv ∧ step (place 5 7 0 [(0, 0x14)]) = .next (place 12 7 1 [(0, 0x14)]) :=
  ⟨by decide, rfl⟩
theorem witness_PcTrajectoryIgnoresRegisters :
    (place 1 2 0 [(0, 0x14)]).sameControl (place 3 4 0 [(0, 0x14)]) ∧
    runUnder .fault 1 (place 1 2 0 [(0, 0x14)]) = .next (place 3 2 1 [(0, 0x14)]) ∧
    (place 1 2 0 [(0, 0x50)]).sameControl (place 3 4 0 [(0, 0x50)]) ∧
    runUnder .fault 1 (place 1 2 0 [(0, 0x50)]) = .fault (.illegalInstruction 0 0x50) :=
  ⟨by decide, rfl, by decide, rfl⟩
/-- Both cases arise: a reserved byte faults at once, `jmp -1` repeats. -/
theorem witness_TrajectoryFaultsOrIsEventuallyPeriodic :
    (place 0 0 0 [(0, 0x50)]).faultMark = none ∧
    runUnder .fault 1 (place 0 0 0 [(0, 0x50)]) = .fault (.illegalInstruction 0 0x50) ∧
    (place 0 0 0 [(0, 0xFF)]).faultMark = none ∧
    runUnder .fault 1 (place 0 0 0 [(0, 0xFF)]) = .next (place 0 0 0 [(0, 0xFF)]) := ⟨rfl, rfl, rfl, rfl⟩
theorem witness_CompleteRunHasOneResult :
    halted (place 0 0 1 [(1, 0xFF)]) = true ∧
    CompletesAt .fault (place 0x5A 0 0 [(0, 0x40), (1, 0xFF)]) (place 0 0 1 [(0, 0x40), (1, 0xFF)]) :=
  ⟨by decide, 1, rfl, by decide⟩
theorem witness_StateStepsToItselfExactlyWhenHalted :
    stepUnder .fault (place 1 2 8 [(8, 0xFF)]) = .next (place 1 2 8 [(8, 0xFF)]) ∧ halted (place 1 2 8 [(8, 0xFF)]) = true ∧
    halted (place 1 2 8 [(8, 0xF0)]) = false := ⟨rfl, by decide, by decide⟩
/-- Each report arises: `jmp -1` complete at once, a reserved byte faulted, a marked state faulted with its mark. -/
theorem witness_RunIsReportedAsItEnds :
    runEnd .fault (place 1 2 8 [(8, 0xFF)]) = .complete (place 1 2 8 [(8, 0xFF)]) ∧
    runEnd .fault (place 1 2 8 [(8, 0x50)]) = .faulted (.illegalInstruction 8 0x50) ∧
    runEnd .fault ((place 1 2 8 [(8, 0xFF)]).markFault (.reservedField 7 0x15)) = .faulted (.reservedField 7 0x15) :=
  ⟨rfl, rfl, rfl⟩

/-- The loop of Example 3 (95_test_vectors.md program P3), `addi r0, 1` at 1 and `jmp -2` at 2. -/
def countingLoop (u v a : Byte) : State := State.launch u v a [(1, 0x31), (2, 0xFE)]

/-- That loop is reported as non-terminating however many steps are allowed, for every R0 and R1, from either instruction. -/
theorem test_counting_loop_is_nonTerminating (n : Nat) (u v : Byte) :
    runEndWithin .fault n (countingLoop u v 1) = .nonTerminating ∧
    runEndWithin .fault n (countingLoop u v 2) = .nonTerminating := by
  have addiByte : decode .fault (Memory.read [(1, 0x31), (2, 0xFE)] 1) = .ok (.addi .r0 1) := by decide
  have jmpByte : decode .fault (Memory.read [(1, 0x31), (2, 0xFE)] 2) = .ok (.jmp 0xE) := by decide
  have back : (2 : Byte) + 1 + sext8 0xE = 1 := by decide
  have addi : ∀ u, stepUnder .fault (countingLoop u v 1) = .next (countingLoop (u + zext8 1) v 2) := by
    intro u
    simp only [stepUnder, countingLoop, State.launch, fetch, addiByte, exec_addi]
    rfl
  have jmp : ∀ u, stepUnder .fault (countingLoop u v 2) = .next (countingLoop u v 1) := by
    intro u
    simp only [stepUnder, countingLoop, State.launch, fetch, jmpByte, exec_jmp, State.setPc, back]
  have running : ∀ u, halted (countingLoop u v 1) = false ∧ halted (countingLoop u v 2) = false := fun _ => ⟨rfl, rfl⟩
  induction n generalizing u with
  | zero => simp only [runEndWithin, running, Bool.false_eq_true, if_false, and_self]
  | succ n ih =>
    simp only [runEndWithin, running, addi, jmp, Bool.false_eq_true, if_false]
    exact ⟨(ih (u + zext8 1)).2, (ih u).1⟩

/-- The furthest targets (42_control_flow.md rule R66), the lower one across 0x00. -/
theorem witness_JumpReachesExactlyOffsetsInRange :
    Assembler.jumpOffset 0x02 0xFB = -8 ∧ Assembler.jumpOffset 0x02 0x0A = 7 ∧ Assembler.jumpOffset 0x02 0x0B = 8 ∧
    exec (.jmp 0b1000) (place 0 0 2 []) = .next (place 0 0 0xFB []) := ⟨by decide, by decide, by decide, rfl⟩
theorem witness_ProgramCounterNeverFlowsIntoRegisters :
    exec (.sub .r1 .r0) (place 7 5 0xFF []) = .next (place 7 0xFE 0 []) := rfl
theorem witness_OnlySelfSubtractionForgetsItsDestination :
    (Instr.sub .r1 .r1).dest = some .r1 ∧ (Instr.add .r0 .r1).dest = some .r0 ∧
    exec (.sub .r1 .r1) ((place 0 0 0 []).setReg .r1 9) = .next (place 0 0 1 []) ∧
    exec (.sub .r1 .r1) ((place 0 0 0 []).setReg .r1 8) = .next (place 0 0 1 []) := ⟨rfl, rfl, rfl, rfl⟩
theorem witness_TwoInstructionIdioms : Reg.r0 ≠ Reg.r1 := by decide
theorem witness_CycleTablesRefineTheStep :
    (place 5 7 0 [(0, 0x14)]).faultMark = none ∧
    decode .fault ((place 5 7 0 [(0, 0x14)]).mem.read (place 5 7 0 [(0, 0x14)]).pc) = .ok (.add .r0 .r1) ∧
    stepUnder .fault (place 5 7 0 [(0, 0x14)]) = .next (place 12 7 1 [(0, 0x14)]) ∧
    stepUnder .fault (place 5 7 0 [(0, 0x50)]) = .fault (.illegalInstruction 0 0x50) ∧
    stepUnder .fault (place 5 7 0 [(0, 0x15)]) = .fault (.reservedField 0 0x15) := ⟨rfl, by decide, rfl, rfl, rfl⟩
theorem witness_StraightRunTakesSevenPerInstructionPlusFourPerAddm :
    (∀ i ∈ [Instr.addm .r0 .r1, .jmp 15], i.wellFormed = true) ∧
    straightRunCycles [.addm .r0 .r1, .jmp 15] = some 18 := by decide
theorem witness_AluFunctionsAndTheirSelectLines :
    executePhase (.sub .r0 .r1) = some [.xFromSrc, .zFromAlu .subtract, .dstFromZ] := rfl
theorem witness_AssemblyTextAssemblesToItsInstruction : (Instr.jmp 0b1000).wellFormed = true := rfl
theorem witness_AssemblerAcceptsExactlyTheValidRanges :
    Assembler.assemble (.addi .r1 7) = .ok (.addi .r1 7) ∧ Assembler.assemble (.addi .r1 8) = .error .immediateOutOfRange ∧
    Assembler.assemble (.jmp (-8)) = .ok (.jmp 0b1000) ∧ Assembler.assemble (.jmp (-9)) = .error .offsetOutOfRange := by
  decide

end Sys2Proof.Tests
end

section
/-! SUPPORT. The state's operations under the changes the statements of 10_state.md speak of: another PC, another fault mark,
and R0 exchanged with R1. -/

namespace Sys2Proof

/-- The destination goes with the register fields. -/
theorem Instr.swap_dest (i : Instr) : i.swap.dest = i.dest.map Reg.swap := by cases i <;> rfl

/-- A reserved row has no register field to exchange. -/
theorem Instr.swap_of_not_wellFormed {i : Instr} (h : i.wellFormed = false) : i.swap = i := by
  cases i <;> cases h <;> rfl

/-- The three shapes of an instruction: it writes a register, it is JMP, or its row is reserved. -/
theorem Instr.shape_cases (i : Instr) : (∃ d, i.dest = some d) ∨ (∃ off, i = .jmp off) ∨ i.wellFormed = false := by
  cases i
  case jmp off => exact .inr (.inl ⟨off, rfl⟩)
  case nand d r => exact .inl ⟨d, rfl⟩
  case add d r => exact .inl ⟨d, rfl⟩
  case addm d r => exact .inl ⟨d, rfl⟩
  case addi d imm => exact .inl ⟨d, rfl⟩
  case sub d r => exact .inl ⟨d, rfl⟩
  all_goals exact .inr (.inr rfl)

end Sys2Proof

namespace Sys2Proof.Machine

variable (s : State) (r q : Reg) (v a : Byte)

/-- A write to a register is read back from it and from no other (10_state.md rule R10). -/
theorem State.reg_setReg : (s.setReg r v).reg q = if q = r then v else s.reg q := by
  split
  · next h => rw [h, State.reg_setReg_same]
  · next h => exact State.reg_setReg_of_ne s r q v h

/-- `retire` at another PC. -/
theorem State.setPc_retire : (s.setPc a).retire r v = (s.retire r v).setPc (a + 1) := by cases r <;> rfl

@[simp] theorem State.setPc_setPc : (s.setPc a).setPc v = s.setPc v := rfl

/-- The state with another fault mark. -/
def State.withMark (s : State) (m : Option Fault) : State := { s with faultMark := m }

variable (m : Option Fault)

@[simp] theorem State.withMark_pc : (s.withMark m).pc = s.pc := rfl
@[simp] theorem State.withMark_mem : (s.withMark m).mem = s.mem := rfl
@[simp] theorem State.withMark_reg : (s.withMark m).reg r = s.reg r := by cases r <;> rfl
theorem State.withMark_setPc : (s.withMark m).setPc v = (s.setPc v).withMark m := rfl
theorem State.withMark_retire : (s.withMark m).retire r v = (s.retire r v).withMark m := by cases r <;> rfl

@[simp] theorem State.swap_pc : s.swap.pc = s.pc := rfl
@[simp] theorem State.swap_mem : s.swap.mem = s.mem := rfl
@[simp] theorem State.swap_reg_swap : s.swap.reg r.swap = s.reg r := by cases r <;> rfl
theorem State.swap_setPc : s.swap.setPc v = (s.setPc v).swap := rfl
theorem State.swap_retire : s.swap.retire r.swap v = (s.retire r v).swap := by cases r <;> rfl

end Sys2Proof.Machine
end

section
/-! SUPPORT. `exec` as one function of the destination and a result, so that what the result depends on is said once; and
what a completed instruction or step leaves unchanged. -/

namespace Sys2Proof.Machine

/-- The value an instruction writes to its destination (40_arithmetic.md rules R58 to R61, 41_logical.md rule R63); 0 where it
has none. -/
def result : Instr → State → Byte
  | .nand ds rs, s => ~~~(s.reg ds &&& s.reg rs)
  | .add ds rs, s => s.reg ds + s.reg rs
  | .addm ds rs, s => s.reg ds + s.mem.read (s.reg rs)
  | .addi ds imm, s => s.reg ds + zext8 imm
  | .sub ds rs, s => s.reg ds - s.reg rs
  | _, _ => 0

variable {i : Instr} {s t : State} {d : Reg}

/-- An instruction with a destination writes its result there and advances the PC. -/
theorem exec_of_dest (h : i.dest = some d) (s : State) : exec i s = .next (s.retire d (result i s)) := by
  cases i <;> cases h <;> rfl

/-- A reserved row faults with its address and byte (60_exceptions.md rule R70). -/
theorem exec_of_not_wellFormed (h : i.wellFormed = false) (s : State) :
    exec i s = .fault (.illegalInstruction s.pc (encode i)) := by
  cases i <;> cases h <;> rfl

/-- The result depends on memory and the registers read only (10_state.md rule R12, column "reads"); on no PC and no mark. -/
theorem result_congr (hm : s.mem = t.mem) (hr : ∀ r ∈ i.sources, s.reg r = t.reg r) : result i s = result i t := by
  cases i <;> simp_all [result, Instr.sources]

/-- Exchanging R0 and R1 in the instruction and in the state leaves the result as it is. -/
theorem result_swap (i : Instr) (s : State) : result i.swap s.swap = result i s := by
  cases i <;> simp [result, Instr.swap]

/-- What a completed instruction has done: one register write and the PC's advance, or one PC write where it has no
destination. -/
theorem exec_eq_next (h : exec i s = .next t) :
    (∃ d, i.dest = some d ∧ t = s.retire d (result i s)) ∨ (i.dest = none ∧ ∃ q, t = s.setPc q) := by
  obtain ⟨d, hd⟩ | ⟨off, rfl⟩ | hw := i.shape_cases
  · rw [exec_of_dest hd] at h
    cases h; exact .inl ⟨d, hd, rfl⟩
  · cases h; exact .inr ⟨rfl, _, rfl⟩
  · rw [exec_of_not_wellFormed hw] at h
    cases h

/-- No instruction writes memory (20_memory.md rule R27). -/
theorem exec_mem (h : exec i s = .next t) : t.mem = s.mem := by
  obtain ⟨d, -, rfl⟩ | ⟨-, q, rfl⟩ := exec_eq_next h <;> simp

/-- No instruction sets or clears the fault mark. -/
theorem exec_faultMark (h : exec i s = .next t) : t.faultMark = s.faultMark := by
  obtain ⟨d, -, rfl⟩ | ⟨-, q, rfl⟩ := exec_eq_next h <;> simp

/-- A register that is not the destination keeps its value. -/
theorem exec_reg_of_not_dest (h : exec i s = .next t) {r : Reg} (hr : i.dest ≠ some r) : t.reg r = s.reg r := by
  obtain ⟨d, hd, rfl⟩ | ⟨-, q, rfl⟩ := exec_eq_next h
  · exact State.retire_reg_of_ne s d r _ fun hrd => hr (hrd ▸ hd)
  · exact State.setPc_reg s r q

/-- A step that answers a next state came from an unmarked state and executed the instruction decoded at the PC. -/
theorem stepUnder_eq_next {p : Config.ExtraPolicy} (h : stepUnder p s = .next t) :
    s.faultMark = none ∧ ∃ i, decode p (fetch s) = .ok i ∧ exec i s = .next t := by
  unfold stepUnder at h
  split at h
  · cases h
  · next hmark =>
    split at h
    · cases h
    · next i hdec => exact ⟨hmark, i, hdec, h⟩

/-- An outcome with its next state changed; a fault or a refusal as it is. -/
def mapNext (f : State → State) : Host.Outcome State Fault Refusal → Host.Outcome State Fault Refusal
  | .next s => .next (f s)
  | .fault e => .fault e
  | .refused e => .refused e

@[simp] theorem mapNext_next (f : State → State) (s : State) : mapNext f (.next s) = .next (f s) := rfl
@[simp] theorem mapNext_fault (f : State → State) (e : Fault) : mapNext f (.fault e) = .fault e := rfl

/-- Every instruction carries any fault mark along (10_state.md rule R20). -/
theorem exec_withMark (i : Instr) (s : State) (m : Option Fault) :
    exec i (s.withMark m) = mapNext (·.withMark m) (exec i s) := by
  obtain ⟨d, hd⟩ | ⟨off, rfl⟩ | hw := i.shape_cases
  · have same : result i (s.withMark m) = result i s :=
      result_congr (State.withMark_mem s m) fun r _ => State.withMark_reg s r m
    rw [exec_of_dest hd, exec_of_dest hd, same, State.withMark_retire, mapNext_next]
  · simp [State.withMark_setPc]
  · simp [exec_of_not_wellFormed hw]

/-- Every instruction treats R0 and R1 alike (10_state.md rule R10). -/
theorem exec_swap (i : Instr) (s : State) : exec i.swap s.swap = mapNext State.swap (exec i s) := by
  obtain ⟨d, hd⟩ | ⟨off, rfl⟩ | hw := i.shape_cases
  · have hd' : i.swap.dest = some d.swap := by rw [Instr.swap_dest, hd]; rfl
    rw [exec_of_dest hd', exec_of_dest hd, result_swap, State.swap_retire, mapNext_next]
  · simp [Instr.swap, State.swap_setPc]
  · rw [Instr.swap_of_not_wellFormed hw]
    simp [exec_of_not_wellFormed hw]

/-- An instruction that completes does so from any other PC and moves the PC by the same distance (10_state.md rule R14). -/
theorem exec_setPc (h : exec i s = .next t) (a : Byte) :
    exec i (s.setPc a) = .next (t.setPc (a + (t.pc - s.pc))) := by
  obtain ⟨d, hd⟩ | ⟨off, rfl⟩ | hw := i.shape_cases
  · have same : result i (s.setPc a) = result i s := result_congr rfl fun r _ => State.setPc_reg s r a
    rw [exec_of_dest hd] at h ⊢
    cases h
    rw [same, State.setPc_retire, State.retire_pc, add_sub_cancel_left]
  · rw [exec_jmp] at h ⊢
    cases h
    simp [add_assoc]
  · rw [exec_of_not_wellFormed hw] at h
    cases h

end Sys2Proof.Machine
end

section
/-! SUPPORT. A canonical memory is determined by what it reads. -/

namespace Sys2Proof.Machine

/-- The entries of a canonical memory are its addresses that do not read as the unlisted byte. -/
theorem Memory.mem_iff_read {m : Memory} (hw : m.wf) {c : Host.Cell} :
    c ∈ m ↔ c.1 < 256 ∧ c.2 = m.read (BitVec.ofNat 8 c.1) ∧ c.2 ≠ Memory.unlisted := by
  obtain ⟨rising, listed⟩ := hw
  have read_entry : ∀ e ∈ m, m.read (BitVec.ofNat 8 e.1) = e.2 := fun e he =>
    Memory.read_of_mem rising (by rwa [BitVec.toNat_ofNat, Nat.mod_eq_of_lt (listed e he).1])
  constructor
  · exact fun hc => ⟨(listed c hc).1, (read_entry c hc).symm, (listed c hc).2⟩
  · rintro ⟨hlt, hread, hne⟩
    by_contra hc
    refine hne (hread.trans (Memory.read_of_unlisted fun e he heq => hc ?_))
    rw [BitVec.toNat_ofNat, Nat.mod_eq_of_lt hlt] at heq
    rwa [Prod.ext heq.symm (hread.trans (heq ▸ read_entry e he))]

/-- A canonical memory is the memory of the image it reads as. -/
theorem Memory.eq_ofImage_read {m : Memory} (hw : m.wf) : m = Memory.ofImage m.read := by
  have : Std.Asymm fun c d : Host.Cell => c.1 < d.1 := ⟨fun _ _ => Nat.lt_asymm⟩
  exact hw.1.eq_of_mem_iff (Memory.ofImage_wf m.read).1 fun c => by
    rw [Memory.mem_iff_read hw, Memory.mem_ofImage]

end Sys2Proof.Machine
end

section
/-! The statements of 10_state.md. -/

namespace Sys2Proof.Machine

/-- The invariant is kept by every step under either policy. -/
theorem stepUnder_keeps_inv {p : Config.ExtraPolicy} {s t : State} (hs : s.Inv) (h : stepUnder p s = .next t) : t.Inv := by
  obtain ⟨hmark, i, -, hexec⟩ := stepUnder_eq_next h
  exact ⟨exec_mem hexec ▸ hs.1, (exec_faultMark hexec).trans hmark⟩

/-- Settles O29, by the inversion of the step and the frame of `exec`. -/
theorem everyStepKeepsTheInvariant : Obligations.EveryStepKeepsTheInvariant :=
  ⟨fun _ _ _ => stepUnder_keeps_inv, fun _ _ => stepUnder_keeps_inv⟩

/-- Settles O7, by the inversion of `exec`. -/
theorem onlyDestinationAndPcChange : Obligations.OnlyDestinationAndPcChange := by
  intro i s t h
  have hm := exec_mem h
  refine ⟨fun r hr => exec_reg_of_not_dest h hr, fun a => by rw [hm], hm, exec_faultMark h, ?_⟩
  obtain ⟨d, hd, rfl⟩ | ⟨hd, q, rfl⟩ := exec_eq_next h
  · refine ⟨fun d' hd' => ?_, fun hnone => nomatch hd.symm.trans hnone⟩
    cases hd.symm.trans hd'
    exact ⟨result i s, s.nextPc, rfl⟩
  · exact ⟨fun d' hd' => (nomatch hd.symm.trans hd'), fun _ => ⟨q, rfl⟩⟩

/-- Settles O8: the result depends on the sources and memory only, and the PC moves by the instruction alone. -/
theorem resultDependsOnlyOnSources : Obligations.ResultDependsOnlyOnSources := by
  intro i s t s' t' hpc hm hr hs ht
  obtain ⟨d, hd⟩ | ⟨off, rfl⟩ | hw := i.shape_cases
  · rw [exec_of_dest hd] at hs ht
    cases hs; cases ht
    refine ⟨by simp [hpc], fun d' hd' => ?_⟩
    cases hd.symm.trans hd'
    simp [result_congr hm hr]
  · rw [exec_jmp] at hs ht
    cases hs; cases ht
    exact ⟨by simp [hpc], fun _ hd => nomatch hd⟩
  · rw [exec_of_not_wellFormed hw] at hs
    cases hs

/-- Settles O11: the outcome commutes with the exchange of R0 and R1. -/
theorem registersAreAlikeOrdinaryStorage : Obligations.RegistersAreAlikeOrdinaryStorage := by
  refine ⟨rfl, rfl, State.reg_setReg, fun i s => ⟨fun t h => ?_, fun a ir h => ?_⟩⟩
  · rw [exec_swap, h, mapNext_next]
  · rw [exec_swap, h, mapNext_fault]

/-- Settles O25: the memory is `Memory.ofImage image`, and a canonical memory is the memory of what it reads. -/
theorem everyImageIsExactlyOneMemory : Obligations.EveryImageIsExactlyOneMemory := by
  refine fun image => ⟨Memory.ofImage image, ⟨Memory.ofImage_wf image, Memory.read_ofImage image⟩, fun n hw hread => ?_⟩
  rw [Memory.eq_ofImage_read hw, funext hread]

/-- Settles O36: the instruction at another PC gives the same state but for the PC. -/
theorem programCounterNeverFlowsIntoRegisters : Obligations.ProgramCounterNeverFlowsIntoRegisters := by
  intro i s t a h
  refine ⟨_, exec_setPc h a, fun r => State.setPc_reg t r _, rfl, ?_⟩
  rw [State.setPc_pc, add_sub_cancel_left]

/-- Settles O22: `exec` carries the mark along. -/
theorem faultMarkIsNotRead : Obligations.FaultMarkIsNotRead := by
  refine fun i s m => ⟨fun t h => ?_, fun f h => ?_⟩
  all_goals exact (exec_withMark i s m).trans (by rw [h]; rfl)

end Sys2Proof.Machine
end

section
/-! SUPPORT. The inductions along a run, packaged once: what every step keeps, a run keeps. -/

namespace Sys2Proof.Machine

variable {p : Config.ExtraPolicy} {P : State → Prop}

/-- A property that every step keeps holds of the state a run answers. -/
theorem runUnder_keeps (keep : ∀ {s t}, P s → stepUnder p s = .next t → P t) {k : Nat} {s t : State} (hs : P s)
    (h : runUnder p k s = .next t) : P t := by
  induction k generalizing s with
  | zero => cases h; exact hs
  | succ k ih =>
    rw [runUnder] at h
    split at h
    · next u hstep => exact ih (keep hs hstep) h
    · cases h
    · cases h

/-- A property that every standing state hands to the next holds after any number of steps, faults included. -/
theorem State.afterSteps_keeps (keep : ∀ {s}, P s → P (s.after p)) (k : Nat) {s : State} (hs : P s) :
    P (s.afterSteps p k) := by
  induction k generalizing s with
  | zero => exact hs
  | succ k ih => exact ih (keep hs)

/-- No step writes memory (20_memory.md rule R27). -/
theorem stepUnder_mem {s t : State} (h : stepUnder p s = .next t) : t.mem = s.mem := by
  obtain ⟨-, i, -, hexec⟩ := stepUnder_eq_next h
  exact exec_mem hexec

/-- The state that stands after a step has the same memory, a fault included (60_exceptions.md rule R69). -/
theorem State.after_mem (p : Config.ExtraPolicy) (s : State) : (s.after p).mem = s.mem := by
  unfold State.after
  split
  · next t hstep => exact stepUnder_mem hstep
  · next f _ => exact State.markFault_mem s f
  · rfl

/-- The state that stands after any number of steps has the same memory. -/
theorem State.afterSteps_mem (p : Config.ExtraPolicy) (k : Nat) (s : State) : (s.afterSteps p k).mem = s.mem :=
  State.afterSteps_keeps (P := fun t => t.mem = s.mem) (fun {t} ht => (State.after_mem p t).trans ht) k rfl

/-- No run writes memory. -/
theorem runUnder_mem {k : Nat} {s t : State} (h : runUnder p k s = .next t) : t.mem = s.mem :=
  runUnder_keeps (P := fun u => u.mem = s.mem) (fun hu hstep => (stepUnder_mem hstep).trans hu) rfl h

end Sys2Proof.Machine
end

section
/-! The statements of 20_memory.md. -/

namespace Sys2Proof.Machine

/-- Settles O23, by the frame of `exec` and the two inductions along a run. -/
theorem memoryIsConstantThroughEveryRun : Obligations.MemoryIsConstantThroughEveryRun := by
  refine ⟨fun _ _ _ => exec_mem, fun p k s => ⟨State.afterSteps_mem p k s, fun t h => ?_⟩⟩
  have hm : t.mem = s.mem := runUnder_mem h
  exact ⟨hm, fun a => by rw [hm]⟩

/-- Settles O24: memory is still the image's, and the launch meets the invariant, which every step keeps. -/
theorem everyReadReturnsTheLaunchImage : Obligations.EveryReadReturnsTheLaunchImage := by
  intro image x0 x1 resetPc p k t h
  have hm : t.mem = Memory.ofImage image := runUnder_mem h
  have launch_inv : (State.launch x0 x1 resetPc (Memory.ofImage image)).Inv := ⟨Memory.ofImage_wf image, rfl⟩
  exact ⟨fun a => by rw [hm, Memory.read_ofImage], runUnder_keeps stepUnder_keeps_inv launch_inv h⟩

end Sys2Proof.Machine
end

section
/-! SUPPORT. The fields of a byte and the byte of its fields (30_encoding.md rules R39 to R43): every operand is a slice of the
byte, and slices that adjoin give the slice over both. -/

namespace Sys2Proof

section fromTheByte

variable (ir : Byte)

theorem opcodeField_toNat : (opcodeField ir).toNat = ir.toNat / 16 := by
  rw [opcodeField, BitVec.extractLsb'_toNat, Nat.shiftRight_eq_div_pow]
  exact Nat.mod_eq_of_lt (by have := ir.isLt; omega)

/-- A select bit read from the byte and written again is the byte's own bit (rule R43). -/
theorem regOfBit_bit (k : Nat) : (regOfBit (ir.getLsbD k)).bit = ir.extractLsb' k 1 := by
  ext j hj
  obtain rfl : j = 0 := by omega
  cases h : ir.getLsbD k <;> simp [regOfBit, Reg.bit, h]

/-- The fields of C-Type and of the reserved rows make up the byte. -/
theorem opcodeField_append_lowField : opcodeField ir ++ lowField ir = ir :=
  (BitVec.extractLsb'_append_extractLsb'_eq_extractLsb' rfl).trans BitVec.extractLsb'_eq_self

/-- The opcode and the bit of `ds` are the byte's upper five bits. -/
theorem opcodeField_append_dsField : opcodeField ir ++ (dsField ir).bit = ir.extractLsb' 3 5 := by
  rw [dsField, regOfBit_bit]
  exact BitVec.extractLsb'_append_extractLsb'_eq_extractLsb' rfl

/-- The fields of B-Type make up the byte. -/
theorem bTypeFields_append : opcodeField ir ++ (dsField ir).bit ++ immField ir = ir := by
  rw [opcodeField_append_dsField]
  exact (BitVec.extractLsb'_append_extractLsb'_eq_extractLsb' rfl).trans BitVec.extractLsb'_eq_self

/-- The fields of A-Type give the byte with `extra` cleared (rule R48). -/
theorem encodeAType_fields : encodeAType (opcodeField ir) (dsField ir) (sField ir) = ir &&& 0xFC := by
  have upper : ir.extractLsb' 3 5 ++ ir.extractLsb' 2 1 = ir.extractLsb' 2 6 :=
    BitVec.extractLsb'_append_extractLsb'_eq_extractLsb' rfl
  rw [encodeAType, opcodeField_append_dsField, sField, regOfBit_bit, upper]
  revert ir; decide

/-- Clearing `extra` changes nothing where it is 00. -/
theorem and_0xFC_of_extraField (h : extraField ir = 0) : ir &&& 0xFC = ir := by
  revert ir; decide

/-- The mask of the rows whose `extra` is not checked leaves the opcode (rule R51). -/
theorem and_0xF0 : ir &&& 0xF0 = opcodeField ir ++ (0 : BitVec 4) := by
  revert ir; decide

/-- The mask of the A-Type rows leaves the opcode and `extra` (rule R51). -/
theorem and_0xF3 : ir &&& 0xF3 = opcodeField ir ++ ((0 : BitVec 2) ++ extraField ir) := by
  revert ir; decide

end fromTheByte

section fromTheFields

variable (op low : BitVec 4) (ds s : Reg) (imm : BitVec 3)

@[simp] theorem opcodeField_append : opcodeField (op ++ low) = op := BitVec.extractLsb'_append_eq_left
@[simp] theorem lowField_append : lowField (op ++ low) = low := BitVec.extractLsb'_append_eq_right

@[simp] theorem opcodeField_bType : opcodeField (op ++ ds.bit ++ imm) = op := by
  cases ds <;> revert op imm <;> decide
@[simp] theorem dsField_bType : dsField (op ++ ds.bit ++ imm) = ds := by
  cases ds <;> revert op imm <;> decide
@[simp] theorem immField_bType : immField (op ++ ds.bit ++ imm) = imm := BitVec.extractLsb'_append_eq_right

@[simp] theorem opcodeField_aType : opcodeField (encodeAType op ds s) = op := by
  cases ds <;> cases s <;> revert op <;> decide
@[simp] theorem dsField_aType : dsField (encodeAType op ds s) = ds := by
  cases ds <;> cases s <;> revert op <;> decide
@[simp] theorem sField_aType : sField (encodeAType op ds s) = s := by
  cases ds <;> cases s <;> revert op <;> decide
@[simp] theorem extraField_aType : extraField (encodeAType op ds s) = 0 := BitVec.extractLsb'_append_eq_right

end fromTheFields

end Sys2Proof
end

section
/-! SUPPORT. The formats (30_encoding.md rules R40 to R47): the 16 rows of the opcode table are four of A-Type, ADDI's, and
eleven that carry their low nibble whole. What the decoder and the encoder do is said once for each format. -/

namespace Sys2Proof

/-- The numbers of the A-Type opcodes (30_encoding.md rule R46). -/
abbrev aTypeOpcodes : List Nat := [0b0000, 0b0001, 0b0010, 0b0100]

/-- The A-Type rows, by opcode (rule R40). -/
inductive IsATypeRow : BitVec 4 → (Reg → Reg → Instr) → Prop
  | nand : IsATypeRow 0b0000 .nand
  | add : IsATypeRow 0b0001 .add
  | addm : IsATypeRow 0b0010 .addm
  | sub : IsATypeRow 0b0100 .sub

/-- The rows whose low nibble is one field, by opcode: JMP's offset (rule R42), and the nibble of a reserved row (rule R47). -/
inductive IsNibbleRow : BitVec 4 → (BitVec 4 → Instr) → Prop
  | reserved0101 : IsNibbleRow 0b0101 .reserved0101
  | reserved0110 : IsNibbleRow 0b0110 .reserved0110
  | reserved0111 : IsNibbleRow 0b0111 .reserved0111
  | reserved1000 : IsNibbleRow 0b1000 .reserved1000
  | reserved1001 : IsNibbleRow 0b1001 .reserved1001
  | reserved1010 : IsNibbleRow 0b1010 .reserved1010
  | reserved1011 : IsNibbleRow 0b1011 .reserved1011
  | reserved1100 : IsNibbleRow 0b1100 .reserved1100
  | reserved1101 : IsNibbleRow 0b1101 .reserved1101
  | reserved1110 : IsNibbleRow 0b1110 .reserved1110
  | jmp : IsNibbleRow 0b1111 .jmp

variable {op : BitVec 4} {ir : Byte} {p : Config.ExtraPolicy}

section aType

variable {mk : Reg → Reg → Instr}

theorem IsATypeRow.opcode_eq (h : IsATypeRow op mk) (ds s : Reg) : (mk ds s).opcode = op := by cases h <;> rfl

theorem IsATypeRow.encode_eq (h : IsATypeRow op mk) (ds s : Reg) : encode (mk ds s) = encodeAType op ds s := by
  cases h <;> rfl

theorem IsATypeRow.toNat_mem (h : IsATypeRow op mk) : op.toNat ∈ aTypeOpcodes := by
  cases h <;> decide

theorem IsATypeRow.dest_eq (h : IsATypeRow op mk) (ds s : Reg) : (mk ds s).dest = some ds := by cases h <;> rfl

theorem IsATypeRow.decode_eq (h : IsATypeRow (opcodeField ir) mk) : decode p ir = decodeAType p ir mk := by
  generalize hop : opcodeField ir = op at h
  cases h <;> simp [decode, hop]

end aType

section nibble

variable {mk : BitVec 4 → Instr}

theorem IsNibbleRow.opcode_eq (h : IsNibbleRow op mk) (low : BitVec 4) : (mk low).opcode = op := by cases h <;> rfl

theorem IsNibbleRow.encode_eq (h : IsNibbleRow op mk) (low : BitVec 4) : encode (mk low) = op ++ low := by
  cases h <;> rfl

theorem IsNibbleRow.toNat_not_mem (h : IsNibbleRow op mk) : op.toNat ∉ aTypeOpcodes := by
  cases h <;> decide

theorem IsNibbleRow.decode_eq (h : IsNibbleRow (opcodeField ir) mk) : decode p ir = .ok (mk (lowField ir)) := by
  generalize hop : opcodeField ir = op at h
  cases h <;> simp [decode, hop]

end nibble

theorem encode_addi (ds : Reg) (imm : BitVec 3) : encode (.addi ds imm) = (0b0011 : BitVec 4) ++ ds.bit ++ imm := rfl

theorem decode_addi (h : opcodeField ir = 0b0011) : decode p ir = .ok (.addi (dsField ir) (immField ir)) := by
  simp [decode, h]

/-- Every opcode is a row's. -/
theorem opcode_cases (op : BitVec 4) :
    (∃ mk, IsATypeRow op mk) ∨ op = 0b0011 ∨ ∃ mk, IsNibbleRow op mk := by
  obtain ⟨⟨n, hn⟩⟩ := op
  interval_cases n
  exacts [.inl ⟨_, .nand⟩, .inl ⟨_, .add⟩, .inl ⟨_, .addm⟩, .inr (.inl rfl), .inl ⟨_, .sub⟩,
    .inr (.inr ⟨_, .reserved0101⟩), .inr (.inr ⟨_, .reserved0110⟩), .inr (.inr ⟨_, .reserved0111⟩),
    .inr (.inr ⟨_, .reserved1000⟩), .inr (.inr ⟨_, .reserved1001⟩), .inr (.inr ⟨_, .reserved1010⟩),
    .inr (.inr ⟨_, .reserved1011⟩), .inr (.inr ⟨_, .reserved1100⟩), .inr (.inr ⟨_, .reserved1101⟩),
    .inr (.inr ⟨_, .reserved1110⟩), .inr (.inr ⟨_, .jmp⟩)]

/-- Every instruction is of one of the formats. -/
theorem Instr.format_cases (i : Instr) :
    (∃ op mk ds s, IsATypeRow op mk ∧ i = mk ds s) ∨ (∃ ds imm, i = .addi ds imm) ∨
    ∃ op mk low, IsNibbleRow op mk ∧ i = mk low := by
  cases i
  case nand ds s => exact .inl ⟨_, _, ds, s, .nand, rfl⟩
  case add ds s => exact .inl ⟨_, _, ds, s, .add, rfl⟩
  case addm ds s => exact .inl ⟨_, _, ds, s, .addm, rfl⟩
  case sub ds s => exact .inl ⟨_, _, ds, s, .sub, rfl⟩
  case addi ds imm => exact .inr (.inl ⟨ds, imm, rfl⟩)
  all_goals exact .inr (.inr ⟨_, _, _, by constructor, rfl⟩)

end Sys2Proof
end

section
/-! SUPPORT. What the decoder answers for any byte, said once for both policies (30_encoding.md rules R48, R50). -/

namespace Sys2Proof

/-- Clearing `extra` in an A-Type byte; any other byte as it is (rule R48). -/
def clearExtra (ir : Byte) : Byte := if ir.toNat / 16 ∈ aTypeOpcodes then ir &&& 0xFC else ir

/-- The byte has the A-Type's reserved field, not 00 (rule R48). -/
abbrev HasReservedExtra (ir : Byte) : Prop := ir.toNat / 16 ∈ aTypeOpcodes ∧ extraField ir ≠ 0

theorem clearExtra_of_not_hasReservedExtra {ir : Byte} (h : ¬ HasReservedExtra ir) : clearExtra ir = ir := by
  unfold clearExtra
  split
  · next hA => exact and_0xFC_of_extraField ir (by_contra fun hne => h ⟨hA, hne⟩)
  · rfl

/-- Everything the decoder can do: a byte holds one instruction, of the byte's opcode, whose encoding is the byte but for an
A-Type byte's `extra`; it is refused exactly where `extra` is checked and not 00 (rules R48, R50). -/
theorem decode_spec (ir : Byte) :
    ∃ i : Instr, i.opcode = opcodeField ir ∧ encode i = clearExtra ir ∧
      ∀ p, decode p ir = if p = .fault ∧ HasReservedExtra ir then .error .reservedExtra else .ok i := by
  simp only [clearExtra, HasReservedExtra, ← opcodeField_toNat]
  obtain ⟨mk, h⟩ | h | ⟨mk, h⟩ := opcode_cases (opcodeField ir)
  · refine ⟨mk (dsField ir) (sField ir), h.opcode_eq _ _, ?_, fun p => ?_⟩
    · rw [h.encode_eq, encodeAType_fields, if_pos h.toNat_mem]
    · rw [h.decode_eq, decodeAType]
      simp only [h.toNat_mem, true_and]
  · refine ⟨.addi (dsField ir) (immField ir), h.symm, ?_, fun p => ?_⟩
    · have fields := bTypeFields_append ir
      rw [h] at fields ⊢
      exact fields
    · rw [decode_addi h, h, if_neg fun hp => absurd hp.2.1 (by decide)]
  · refine ⟨mk (lowField ir), h.opcode_eq _, ?_, fun p => ?_⟩
    · rw [h.encode_eq, opcodeField_append_lowField, if_neg h.toNat_not_mem]
    · rw [h.decode_eq, if_neg fun hp => h.toNat_not_mem hp.2.1]

/-- Under `fault` a byte with a reserved field does not decode (rule R48). -/
theorem not_hasReservedExtra_of_decode_fault {ir : Byte} {i : Instr} (h : decode .fault ir = .ok i) :
    ¬ HasReservedExtra ir := by
  obtain ⟨j, -, -, hdec⟩ := decode_spec ir
  rw [hdec] at h
  intro hex
  rw [if_pos ⟨rfl, hex⟩] at h
  cases h

/-- The inversion of the decoder under either policy. -/
theorem encode_of_decode {p : Config.ExtraPolicy} {ir : Byte} {i : Instr} (h : decode p ir = .ok i) :
    i.opcode = opcodeField ir ∧ encode i = clearExtra ir := by
  obtain ⟨j, hop, henc, hdec⟩ := decode_spec ir
  rw [hdec] at h
  split at h
  · cases h
  · cases h; exact ⟨hop, henc⟩

/-- The encoding of an instruction decodes to it (rules R50, R57), in each format. -/
theorem decode_encode (p : Config.ExtraPolicy) (i : Instr) : decode p (encode i) = .ok i := by
  obtain ⟨op, mk, ds, s, h, rfl⟩ | ⟨ds, imm, rfl⟩ | ⟨op, mk, low, h, rfl⟩ := i.format_cases
  · rw [h.encode_eq, IsATypeRow.decode_eq (by rwa [opcodeField_aType]), decodeAType]
    simp
  · rw [encode_addi, decode_addi (opcodeField_bType _ ds imm), dsField_bType, immField_bType]
  · rw [h.encode_eq, IsNibbleRow.decode_eq (by rwa [opcodeField_append]), lowField_append]

end Sys2Proof
end

section
/-! SUPPORT. The opcode table's rows: what a row's mask and pattern ask of a byte (30_encoding.md rule R51). -/

namespace Sys2Proof

/-- Each row's pattern is its opcode with a low nibble of zeros, and its mask checks `extra` in the A-Type rows alone. -/
theorem opcodeTable_pattern_mask : ∀ row ∈ opcodeTable, row.pattern = row.opcode ++ (0 : BitVec 4) ∧
    row.mask = if row.opcode.toNat ∈ aTypeOpcodes then 0xF3 else 0xF0 := by decide

/-- An opcode has one row. -/
theorem opcodeTable_opcode_injective :
    ∀ row ∈ opcodeTable, ∀ row' ∈ opcodeTable, row.opcode = row'.opcode → row = row' := by decide

theorem append_eq_append_iff {op op' low low' : BitVec 4} : op ++ low = op' ++ low' ↔ op = op' ∧ low = low' := by
  refine ⟨fun h => ⟨?_, ?_⟩, fun ⟨hop, hlow⟩ => by rw [hop, hlow]⟩
  · simpa using congrArg opcodeField h
  · simpa using congrArg lowField h

/-- A byte matches a row exactly when it has the row's opcode and no reserved `extra`. -/
theorem matches_row_iff {row : OpcodeRow} (hrow : row ∈ opcodeTable) (ir : Byte) :
    ir &&& row.mask = row.pattern ↔ opcodeField ir = row.opcode ∧ ¬ HasReservedExtra ir := by
  obtain ⟨hpattern, hmask⟩ := opcodeTable_pattern_mask row hrow
  have zeros : (0 : BitVec 2) ++ extraField ir = (0 : BitVec 4) ↔ extraField ir = 0 := by
    generalize extraField ir = extra
    revert extra; decide
  rw [hpattern, hmask, HasReservedExtra, ← opcodeField_toNat]
  split
  · next hA =>
    rw [and_0xF3, append_eq_append_iff, zeros]
    exact and_congr_right fun hop => by simp [hop, hA]
  · next hA =>
    rw [and_0xF0, append_eq_append_iff]
    exact and_congr_right fun hop => by simp [hop, hA]

end Sys2Proof
end

section
/-! SUPPORT. The step over the decoder's answer (30_encoding.md rule R52), and which instructions it executes. -/

namespace Sys2Proof

/-- Every A-Type instruction has a destination. -/
theorem Instr.dest_of_aType {i : Instr} (h : i.opcode.toNat ∈ aTypeOpcodes) : ∃ d, i.dest = some d := by
  obtain ⟨op, mk, ds, s, hrow, rfl⟩ | ⟨ds, imm, rfl⟩ | ⟨op, mk, low, hrow, rfl⟩ := i.format_cases
  · exact ⟨ds, hrow.dest_eq ds s⟩
  · exact ⟨ds, rfl⟩
  · rw [hrow.opcode_eq] at h
    exact absurd h hrow.toNat_not_mem

namespace Machine

variable {p : Config.ExtraPolicy} {s : State}

/-- A byte that decodes is executed. -/
theorem stepUnder_of_decode_ok {i : Instr} (hmark : s.faultMark = none) (h : decode p (fetch s) = .ok i) :
    stepUnder p s = exec i s := by
  simp [stepUnder, hmark, h]

/-- A byte that the decoder refuses faults with its address (60_exceptions.md rule R71). -/
theorem stepUnder_of_decode_error (hmark : s.faultMark = none) (h : decode p (fetch s) = .error .reservedExtra) :
    stepUnder p s = .fault (.reservedField s.pc (fetch s)) := by
  simp [stepUnder, hmark, h, raiseReservedField_eq]

end Machine
end Sys2Proof
end

section
/-! SUPPORT. The numbers the fields hold: the operand forms (30_encoding.md rules R44, R45), and the numbers a source line may
write in them (rule R54). -/

namespace Sys2Proof

theorem dsField_eq (ir : Byte) : dsField ir = if ir.toNat / 8 % 2 = 0 then .r0 else .r1 := by
  have bit : ir.getLsbD 3 = decide (ir.toNat / 8 % 2 = 1) := Nat.testBit_eq_decide_div_mod_eq
  rcases Nat.mod_two_eq_zero_or_one (ir.toNat / 8) with h | h <;> rw [dsField, regOfBit, bit] <;> simp [h]

theorem immField_toNat (ir : Byte) : (immField ir).toNat = ir.toNat % 8 := by
  rw [immField, BitVec.extractLsb'_toNat, Nat.shiftRight_zero]

theorem lowField_toNat (ir : Byte) : (lowField ir).toNat = ir.toNat % 16 := by
  rw [lowField, BitVec.extractLsb'_toNat, Nat.shiftRight_zero]

/-- The byte of an opcode and a low nibble, as a number. -/
theorem ofNat_opcode_add_low (op low : BitVec 4) : BitVec.ofNat 8 (16 * op.toNat + low.toNat) = op ++ low := by
  have hop := op.isLt
  have hlow := low.isLt
  apply BitVec.eq_of_toNat_eq
  rw [BitVec.toNat_append, ← Nat.shiftLeft_add_eq_or_of_lt hlow, Nat.shiftLeft_eq, BitVec.toNat_ofNat]
  omega

namespace Machine

@[simp] theorem zext8_toNat (imm : BitVec 3) : (zext8 imm).toNat = imm.toNat := by
  rw [zext8]
  exact BitVec.toNat_setWidth_of_le (by decide)

@[simp] theorem sext8_toInt (off : BitVec 4) : (sext8 off).toInt = off.toInt :=
  BitVec.toInt_signExtend_of_le (by decide)

end Machine

/-- The range of an offset field (rule R45). -/
theorem offset_range (off : BitVec 4) : -8 ≤ off.toInt ∧ off.toInt ≤ 7 :=
  ⟨off.le_toInt, Int.le_of_lt_add_one off.toInt_lt⟩

end Sys2Proof

namespace Sys2Proof.Assembler

/-- The immediates that assemble are the values of the field (rule R54). -/
theorem assemble_addi_eq_ok {rds : Reg} {imm : Int} {i : Instr} :
    assemble (.addi rds imm) = .ok i ↔ ∃ k : BitVec 3, i = .addi rds k ∧ (k.toNat : Int) = imm := by
  rw [assemble_addi]
  constructor
  · intro h
    split at h
    · next hr =>
      cases h
      refine ⟨_, rfl, ?_⟩
      rw [BitVec.toNat_ofInt]
      omega
    · cases h
  · rintro ⟨k, rfl, rfl⟩
    have := k.isLt
    rw [if_pos (by omega), BitVec.ofInt_natCast, BitVec.ofNat_toNat, BitVec.setWidth_eq]

/-- The offsets that assemble are the values of the field (rule R54). -/
theorem assemble_jmp_eq_ok {off : Int} {i : Instr} :
    assemble (.jmp off) = .ok i ↔ ∃ k : BitVec 4, i = .jmp k ∧ k.toInt = off := by
  rw [assemble_jmp]
  constructor
  · intro h
    split at h
    · next hr =>
      cases h
      exact ⟨_, rfl, BitVec.toInt_ofInt_eq_self (by decide) hr.1 (Int.lt_add_one_of_le hr.2)⟩
    · cases h
  · rintro ⟨k, rfl, rfl⟩
    rw [if_pos (offset_range k), BitVec.ofInt_toInt]

end Sys2Proof.Assembler
end

section
/-! SUPPORT. The assembly text of each instruction reads back as its source line (30_encoding.md rule R53). -/

namespace Sys2Proof.Assembler

/-- A text without its comment reads as the text with it (rule R53). -/
theorem takeWhile_comment (text comment : List Char) :
    (text ++ [';'] ++ comment).takeWhile (· ≠ ';') = text.takeWhile (· ≠ ';') := by
  induction text with
  | nil => rfl
  | cons c text ih => rw [List.cons_append, List.cons_append, List.takeWhile_cons, List.takeWhile_cons, ih]

theorem parse_comment (text comment : List Char) : parse (text ++ [';'] ++ comment) = parse text := by
  rw [parse, takeWhile_comment]
  rfl

/-- The text and what it reads as, as one equation. -/
theorem hasSyntax_of_map {i : Instr} {line : Line} (h : (render i).map parse = some (.ok (some line))) :
    Claims.HasSyntax i line := by
  obtain ⟨text, hrender, hparse⟩ := Option.map_eq_some_iff.mp h
  exact ⟨text, hrender, hparse⟩

variable (ds s : Reg)

theorem hasSyntax_nand : Claims.HasSyntax (.nand ds s) (.nand ds s) :=
  hasSyntax_of_map (by cases ds <;> cases s <;> decide)

theorem hasSyntax_add : Claims.HasSyntax (.add ds s) (.add ds s) :=
  hasSyntax_of_map (by cases ds <;> cases s <;> decide)

theorem hasSyntax_addm : Claims.HasSyntax (.addm ds s) (.addm ds s) :=
  hasSyntax_of_map (by cases ds <;> cases s <;> decide)

theorem hasSyntax_sub : Claims.HasSyntax (.sub ds s) (.sub ds s) :=
  hasSyntax_of_map (by cases ds <;> cases s <;> decide)

theorem hasSyntax_addi (imm : BitVec 3) : Claims.HasSyntax (.addi ds imm) (.addi ds imm.toNat) :=
  hasSyntax_of_map (by cases ds <;> revert imm <;> decide)

theorem hasSyntax_jmp (off : BitVec 4) : Claims.HasSyntax (.jmp off) (.jmp off.toInt) :=
  hasSyntax_of_map (by revert off; decide)

end Sys2Proof.Assembler
end

section
/-! The statements of 30_encoding.md. -/

namespace Sys2Proof.Machine

open Assembler

/-- Settles O12, format by format. -/
theorem everyEncodingDecodesToItsInstruction : Obligations.EveryEncodingDecodesToItsInstruction := decode_encode

/-- Settles O13: what decodes is its encoding with `extra` cleared, and under `fault` there is nothing to clear. -/
theorem everyDecodedByteIsItsEncoding : Obligations.EveryDecodedByteIsItsEncoding := by
  refine fun ir i => ⟨fun h => ?_, fun h => (encode_of_decode h).2⟩
  rw [(encode_of_decode h).2, clearExtra_of_not_hasReservedExtra (not_hasReservedExtra_of_decode_fault h)]

/-- Settles O14: a row's mask and pattern ask for the row's opcode and for no reserved `extra`. -/
theorem opcodeTableRowsDecideDecoding : Obligations.OpcodeTableRowsDecideDecoding := by
  refine fun ir => ⟨fun row hrow => ?_, fun row hrow row' hrow' h h' => ?_⟩
  · rw [matches_row_iff hrow]
    constructor
    · rintro ⟨hop, hextra⟩
      obtain ⟨i, hi, -, hdec⟩ := decode_spec ir
      exact ⟨i, by rw [hdec, if_neg fun hp => hextra hp.2], hi.trans hop⟩
    · rintro ⟨i, hdec, hi⟩
      exact ⟨(encode_of_decode hdec).1.symm.trans hi, not_hasReservedExtra_of_decode_fault hdec⟩
  · have hop := ((matches_row_iff hrow ir).mp h).1
    have hop' := ((matches_row_iff hrow' ir).mp h').1
    exact opcodeTable_opcode_injective row hrow row' hrow' (hop.symm.trans hop')

/-- Settles O20: the byte decodes under `ignore` to the instruction that its cleared byte encodes, and the policies part only
where `fault` raises the reserved field. -/
theorem ignorePolicyExecutesWithExtraCleared : Obligations.IgnorePolicyExecutesWithExtraCleared := by
  intro s hmark
  obtain ⟨i, hop, henc, hdec⟩ := decode_spec (fetch s)
  have ignored : stepUnder .ignore s = exec i s := stepUnder_of_decode_ok hmark (by simp [hdec])
  refine ⟨fun hA => ?_, fun hnot => ?_⟩
  · obtain ⟨d, hd⟩ := Instr.dest_of_aType (i := i) (by rwa [hop, opcodeField_toNat])
    have hnext := exec_of_dest hd s
    have cleared : encode i = s.mem.read s.pc &&& 0xFC := henc.trans (if_pos hA)
    exact ⟨i, _, cleared ▸ decode_encode .fault i, hnext, ignored.trans hnext⟩
  · have hextra : ¬ HasReservedExtra (fetch s) := fun hex =>
      hnot _ _ (stepUnder_of_decode_error hmark (by rw [hdec, if_pos ⟨rfl, hex⟩]))
    rw [ignored, stepUnder_of_decode_ok hmark (by rw [hdec, if_neg fun hp => hextra hp.2])]

/-- Settles O17, by the step over a byte that decodes. -/
theorem stepExecutesTheDecodedInstruction : Obligations.StepExecutesTheDecodedInstruction :=
  ⟨fun _ _ _ => stepUnder_of_decode_ok, fun _ _ => stepUnder_of_decode_ok⟩

/-- Settles O34: an offset that assembles is the signed distance itself, and every field's value is in range. -/
theorem jumpReachesExactlyOffsetsInRange : Obligations.JumpReachesExactlyOffsetsInRange := by
  refine ⟨fun s target hlo hhi => ?_, fun s t off h => ?_⟩
  · obtain ⟨i, h⟩ : ∃ i, assemble (.jmp (jumpOffset s.pc target)) = .ok i := ⟨_, if_pos ⟨hlo, hhi⟩⟩
    obtain ⟨off, rfl, hoff⟩ := assemble_jmp_eq_ok.mp h
    refine ⟨off, _, h, exec_jmp off s, ?_⟩
    have distance : sext8 off = target - (s.pc + 1) :=
      BitVec.toInt_inj.mp ((sext8_toInt off).trans hoff)
    rw [State.setPc_pc, distance, add_sub_cancel]
  · rw [exec_jmp] at h
    cases h
    rw [jumpOffset, State.setPc_pc, add_sub_cancel_left, sext8_toInt]
    exact ⟨rfl, offset_range off⟩

/-- Settles O42, by what the text of each of the six instructions reads as, and the field's value in its line. -/
theorem assemblyTextAssemblesToItsInstruction : Obligations.AssemblyTextAssemblesToItsInstruction := by
  have assembled : ∀ {i line}, Claims.HasSyntax i line → assemble line = .ok i →
      ∃ text line, render i = some text ∧ parse text = .ok (some line) ∧ assemble line = .ok i :=
    fun ⟨text, hrender, hparse⟩ h => ⟨text, _, hrender, hparse, h⟩
  refine ⟨fun i hw => ?_, parse_comment⟩
  cases i
  case nand ds s => exact assembled (hasSyntax_nand ds s) rfl
  case add ds s => exact assembled (hasSyntax_add ds s) rfl
  case addm ds s => exact assembled (hasSyntax_addm ds s) rfl
  case sub ds s => exact assembled (hasSyntax_sub ds s) rfl
  case addi ds imm => exact assembled (hasSyntax_addi ds imm) (assemble_addi_eq_ok.mpr ⟨imm, rfl, rfl⟩)
  case jmp off => exact assembled (hasSyntax_jmp off) (assemble_jmp_eq_ok.mpr ⟨off, rfl, rfl⟩)
  all_goals cases hw

/-- Settles O43: a line assembles exactly when its number is a value of the field, and the field's values are the range. -/
theorem assemblerAcceptsExactlyTheValidRanges : Obligations.AssemblerAcceptsExactlyTheValidRanges := by
  refine ⟨fun rds imm i => ?_, fun off i => ?_⟩
  · rw [assemble_addi_eq_ok]
    refine ⟨fun ⟨k, hi, hk⟩ => ?_, fun ⟨_, _, hfield⟩ => hfield⟩
    have := k.isLt
    exact ⟨by omega, by omega, k, hi, hk⟩
  · rw [assemble_jmp_eq_ok]
    refine ⟨fun ⟨k, hi, hk⟩ => ?_, fun ⟨_, _, hfield⟩ => hfield⟩
    obtain ⟨hlo, hhi⟩ := offset_range k
    exact ⟨hk ▸ hlo, hk ▸ hhi, k, hi, hk⟩

/-- Settles O10: the operands are the byte's low bits, extended to 8. -/
theorem immediateZeroExtendsAndOffsetSignExtends : Obligations.ImmediateZeroExtendsAndOffsetSignExtends := by
  refine ⟨fun p ir h => ⟨immField ir, ?_, ?_⟩, fun p ir h => ⟨lowField ir, ?_, ?_⟩⟩
  · rw [decode_addi (BitVec.eq_of_toNat_eq ((opcodeField_toNat ir).trans h)), dsField_eq]
  · rw [zext8_toNat, immField_toNat]
  · have hop : opcodeField ir = 0b1111 := BitVec.eq_of_toNat_eq ((opcodeField_toNat ir).trans h)
    exact IsNibbleRow.decode_eq (hop ▸ .jmp)
  · rw [sext8_toInt, BitVec.toInt_eq_toNat_cond, lowField_toNat]
    split <;> split <;> omega

/-- Settles O16: the words are the encodings of the instructions, and so decode to them. -/
theorem sourceEncodingsDecodeAsCorrected : Obligations.SourceEncodingsDecodeAsCorrected := by
  intro w hw
  have henc : encode w.2 = w.1 := by revert w; decide
  exact ⟨henc ▸ decode_encode .fault w.2, henc⟩

/-- Settles O18: each byte is the encoding of its reserved row, and a reserved row faults with its encoding. -/
theorem reservedOpcodesRaiseIllegalInstruction : Obligations.ReservedOpcodesRaiseIllegalInstruction := by
  intro low s row hrow
  have byte : row.1.wellFormed = false ∧ encode row.1 = BitVec.ofNat 8 (row.2 + low.toNat) := by
    simp only [List.mem_cons, List.not_mem_nil, or_false] at hrow
    rcases hrow with rfl | rfl | rfl | rfl | rfl | rfl | rfl | rfl | rfl | rfl
    all_goals exact ⟨rfl, (ofNat_opcode_add_low _ low).symm⟩
  obtain ⟨hw, henc⟩ := byte
  rw [← henc]
  exact ⟨exec_of_not_wellFormed hw s, fun p => decode_encode p row.1⟩

/-- Settles O38, by the equations of the two instructions; the other register keeps its value through both. -/
theorem twoInstructionIdioms : Obligations.TwoInstructionIdioms := by
  refine ⟨fun s d k => ?_, fun s d e hne => ?_, fun s d => ?_, fun s d e hne => ?_⟩
  · refine ⟨_, _, exec_sub d d s, exec_addi d k _, ?_⟩
    simp
  · refine ⟨_, _, exec_sub d d s, exec_add d e _, ?_⟩
    simp [State.retire_reg_of_ne _ _ _ _ hne.symm]
  · refine ⟨_, _, exec_nand d d s, exec_addi d 1 _, ?_⟩
    have one : zext8 1#3 = 1#8 := by decide
    simp [one, BitVec.neg_eq_not_add]
  · refine ⟨_, _, exec_nand d e s, exec_nand d d _, ?_⟩
    simp [State.retire_reg_of_ne _ _ _ _ hne.symm]

end Sys2Proof.Machine
end

section
/-! SUPPORT. Bytes as numbers (30_encoding.md rules R40, R41): a format's byte is the sum of its fields at their weights, and an
A-Type byte given as such a sum, `extra` included, is read back field by field. -/

namespace Sys2Proof

/-- The bits `x` above the bits `y`, as a number. -/
theorem toNat_append_eq_add {n m : Nat} (x : BitVec n) (y : BitVec m) :
    (x ++ y).toNat = x.toNat * 2 ^ m + y.toNat := by
  rw [BitVec.toNat_append, ← Nat.shiftLeft_add_eq_or_of_lt y.isLt, Nat.shiftLeft_eq]

theorem encode_addi_toNat (ds : Reg) (imm : BitVec 3) :
    (encode (.addi ds imm)).toNat = 0x30 + 8 * ds.bit.toNat + imm.toNat := by
  have opcode_toNat : (0b0011 : BitVec 4).toNat = 3 := rfl
  rw [encode_addi, toNat_append_eq_add, toNat_append_eq_add, opcode_toNat]
  omega

theorem encodeAType_toNat (op : BitVec 4) (ds s : Reg) :
    (encodeAType op ds s).toNat = 16 * op.toNat + 8 * ds.bit.toNat + 4 * s.bit.toNat := by
  have extra_toNat : (0b00 : BitVec 2).toNat = 0 := rfl
  rw [encodeAType, toNat_append_eq_add, toNat_append_eq_add, toNat_append_eq_add, extra_toNat]
  omega

theorem extraField_toNat (ir : Byte) : (extraField ir).toNat = ir.toNat % 4 := by
  rw [extraField, BitVec.extractLsb'_toNat, Nat.shiftRight_zero]

/-- A select bit's weight in the byte gives the register it names (rule R43). -/
theorem regOfBit_of_toNat {ir : Byte} {k : Nat} {r : Reg} (h : ir.toNat / 2 ^ k % 2 = r.bit.toNat) :
    regOfBit (ir.getLsbD k) = r := by
  have bit : ir.getLsbD k = decide (ir.toNat / 2 ^ k % 2 = 1) := Nat.testBit_eq_decide_div_mod_eq
  rw [bit, h]
  cases r <;> rfl

section aType

variable {op : BitVec 4} {mk : Reg → Reg → Instr} {ds s : Reg} {extra : Nat}

/-- The decoder on an A-Type byte with any `extra` (rules R48, R50): refused exactly where `extra` is checked and not 00. -/
theorem IsATypeRow.decode_of_toNat (h : IsATypeRow op mk) {ir : Byte} (hextra : extra < 4)
    (hir : ir.toNat = 16 * op.toNat + 8 * ds.bit.toNat + 4 * s.bit.toNat + extra) (p : Config.ExtraPolicy) :
    decode p ir = if p = .fault ∧ extra ≠ 0 then .error .reservedExtra else .ok (mk ds s) := by
  have hds := ds.bit.isLt
  have hs := s.bit.isLt
  have opcode_eq : opcodeField ir = op := BitVec.eq_of_toNat_eq (by rw [opcodeField_toNat]; omega)
  have ds_eq : dsField ir = ds := regOfBit_of_toNat (by omega)
  have s_eq : sField ir = s := regOfBit_of_toNat (by omega)
  have extra_eq : extraField ir = 0 ↔ extra = 0 := by
    rw [BitVec.toNat_eq, extraField_toNat, BitVec.ofNat_eq_ofNat, BitVec.toNat_zero]
    omega
  rw [IsATypeRow.decode_eq (opcode_eq.symm ▸ h), decodeAType, ds_eq, s_eq]
  simp only [ne_eq, extra_eq]

/-- Adding `extra` to an A-Type byte of the encoder writes it in the two lowest bits. -/
theorem encodeAType_add_extra_toNat (hextra : extra < 4) :
    (encodeAType op ds s + BitVec.ofNat 8 extra).toNat =
      16 * op.toNat + 8 * ds.bit.toNat + 4 * s.bit.toNat + extra := by
  have hop := op.isLt
  have hds := ds.bit.isLt
  have hs := s.bit.isLt
  rw [BitVec.toNat_add, BitVec.toNat_ofNat, encodeAType_toNat]
  omega

/-- Every A-Type row has the A-Type encoding (rules R40, R48). -/
theorem IsATypeRow.encoding (h : IsATypeRow op mk) : Claims.ATypeEncoding op.toNat mk := by
  refine fun ds s => ⟨?_, fun p => decode_encode p (mk ds s), fun extra hpos hlt => ?_⟩
  · rw [h.encode_eq, encodeAType_toNat]
  · have answer := h.decode_of_toNat hlt (encodeAType_add_extra_toNat (ds := ds) (s := s) hlt)
    rw [h.encode_eq, answer, answer]
    exact ⟨if_pos ⟨rfl, hpos.ne'⟩, if_neg fun hp => nomatch hp.1⟩

end aType

end Sys2Proof
end

section
/-! SUPPORT. An instruction with a destination completes with its result there and nothing else changed (10_state.md rules R14,
R15). -/

namespace Sys2Proof.Machine

theorem writesRegister_result {i : Instr} {d : Reg} (h : i.dest = some d) (s : State) :
    Claims.WritesRegister i s d (result i s).toNat := by
  refine ⟨_, exec_of_dest h s, ?_, ?_, fun r hr => State.retire_reg_of_ne s d r _ hr, fun a => ?_, ?_⟩
  · rw [State.retire_reg_same]
  · exact BitVec.toNat_add s.pc 1
  · rw [State.retire_mem]
  · rw [State.retire_faultMark]

end Sys2Proof.Machine
end

section
/-! The statements of 40_arithmetic.md. In each, the register written is that of the instruction's `result`, and what is left
is the number that `result` is. -/

namespace Sys2Proof.Machine

open Assembler

/-- Settles O1, by ADD's row and its result as a number. -/
theorem addWritesSumModulo256 : Obligations.AddWritesSumModulo256 := by
  refine ⟨IsATypeRow.add.encoding, fun ds rs s => ⟨hasSyntax_add ds rs, rfl, ?_⟩⟩
  have sum : (result (.add ds rs) s).toNat = _ := BitVec.toNat_add (s.reg ds) (s.reg rs)
  exact sum ▸ writesRegister_result rfl s

/-- Settles O2, by ADDI's encoding as a number, the opcode of the bytes 0x30 to 0x3F, and its result as a number. -/
theorem addiAddsZeroExtendedImmediate : Obligations.AddiAddsZeroExtendedImmediate := by
  refine ⟨fun ds imm p => ⟨encode_addi_toNat ds imm, decode_encode p _⟩, fun p ir hlo hhi => ?_, fun ds imm s => ?_⟩
  · have upper : ir.toNat / 16 = 0b0011 := by omega
    exact ⟨_, _, decode_addi (BitVec.eq_of_toNat_eq ((opcodeField_toNat ir).trans upper))⟩
  · refine ⟨hasSyntax_addi ds imm, rfl, ?_⟩
    have sum : (result (.addi ds imm) s).toNat = ((s.reg ds).toNat + imm.toNat) % 256 := by
      rw [result, BitVec.toNat_add, zext8_toNat]
    exact sum ▸ writesRegister_result rfl s

/-- Settles O3, by ADDM's row and its result as a number. -/
theorem addmAddsByteAtSourceRegister : Obligations.AddmAddsByteAtSourceRegister := by
  refine ⟨IsATypeRow.addm.encoding, fun ds rs s => ⟨hasSyntax_addm ds rs, rfl, ?_⟩⟩
  have sum : (result (.addm ds rs) s).toNat = _ := BitVec.toNat_add (s.reg ds) (s.mem.read (s.reg rs))
  exact sum ▸ writesRegister_result rfl s

/-- Settles O4, by SUB's row and its result as a number. -/
theorem subWritesDestinationMinusSource : Obligations.SubWritesDestinationMinusSource := by
  refine ⟨IsATypeRow.sub.encoding, fun ds rs s => ⟨hasSyntax_sub ds rs, rfl, ?_⟩⟩
  have difference : (result (.sub ds rs) s).toNat = (256 + (s.reg ds).toNat - (s.reg rs).toNat) % 256 := by
    have hrs := (s.reg rs).isLt
    rw [result, BitVec.toNat_sub]
    omega
  exact difference ▸ writesRegister_result rfl s

end Sys2Proof.Machine
end

section
/-! The statement of 41_logical.md: the byte written is NAND's `result`, read bit by bit. -/

namespace Sys2Proof.Machine

open Assembler

/-- NAND's result, bit by bit (rule R63): the bits of a byte are those below 8. -/
theorem result_nand_getLsbD (ds rs : Reg) (s : State) {b : Nat} (hb : b < 8) :
    (result (.nand ds rs) s).getLsbD b = !((s.reg ds).getLsbD b && (s.reg rs).getLsbD b) := by
  have not_bit : (result (.nand ds rs) s).getLsbD b = (decide (b < 8) && !(s.reg ds &&& s.reg rs).getLsbD b) :=
    BitVec.getLsbD_not
  rw [not_bit, decide_eq_true hb, Bool.true_and, BitVec.getLsbD_and]

/-- Settles O5, by NAND's row and the bits of its result. -/
theorem nandWritesComplementOfConjunction : Obligations.NandWritesComplementOfConjunction :=
  ⟨IsATypeRow.nand.encoding, fun ds rs s => ⟨hasSyntax_nand ds rs, rfl, result (.nand ds rs) s,
    writesRegister_result rfl s, fun _ hb => result_nand_getLsbD ds rs s hb⟩⟩

end Sys2Proof.Machine
end

section
/-! SUPPORT. Runs in lockstep (42_control_flow.md rule R66): two states that differ in R0 and R1 alone have outcomes that differ
so too, instruction by instruction, step by step, and run by run. -/

namespace Sys2Proof.Machine

/-- Two outcomes that the PC's trajectory cannot tell apart: next states that differ in R0 and R1 at most, or one fault. A
refusal has no partner, not even itself. -/
inductive Lockstep : Host.Outcome State Fault Refusal → Host.Outcome State Fault Refusal → Prop
  | next {s t : State} (h : s.sameControl t) : Lockstep (.next s) (.next t)
  | fault (f : Fault) : Lockstep (.fault f) (.fault f)

variable {o : Host.Outcome State Fault Refusal} {p : Config.ExtraPolicy} {s t : State} {f : Fault}

theorem Lockstep.of_next (h : Lockstep (.next s) o) : ∃ t, o = .next t ∧ s.sameControl t := by
  cases h with
  | next hst => exact ⟨_, rfl, hst⟩

theorem Lockstep.of_fault (h : Lockstep (.fault f) o) : o = .fault f := by
  cases h; rfl

/-- An outcome in lockstep with itself is no refusal. -/
theorem Lockstep.next_or_fault (h : Lockstep o o) : (∃ t, o = .next t) ∨ ∃ f, o = .fault f := by
  cases h with
  | next => exact .inl ⟨_, rfl⟩
  | fault f => exact .inr ⟨f, rfl⟩

theorem State.sameControl_refl (s : State) : s.sameControl s := ⟨rfl, rfl, rfl⟩

/-- No instruction moves the PC, changes memory or faults by what R0 and R1 hold. -/
theorem exec_lockstep (i : Instr) (h : s.sameControl t) : Lockstep (exec i s) (exec i t) := by
  obtain ⟨hpc, hm, hf⟩ := h
  obtain ⟨d, hd⟩ | ⟨off, rfl⟩ | hw := i.shape_cases
  · rw [exec_of_dest hd, exec_of_dest hd]
    exact .next ⟨by simp [hpc], by simp [hm], by simp [hf]⟩
  · rw [exec_jmp, exec_jmp]
    exact .next ⟨by simp [hpc], hm, hf⟩
  · rw [exec_of_not_wellFormed hw, exec_of_not_wellFormed hw, hpc]
    exact .fault _

/-- A state that carries the mark answers the mark's fault (60_exceptions.md rule R69). -/
theorem stepUnder_of_mark (h : s.faultMark = some f) : stepUnder p s = .fault f := by
  rw [stepUnder, h]
  rfl

/-- The two states fetch one byte, so they take the same branch of the step. -/
theorem stepUnder_lockstep (p : Config.ExtraPolicy) (h : s.sameControl t) :
    Lockstep (stepUnder p s) (stepUnder p t) := by
  obtain ⟨hpc, hm, hf⟩ := h
  have fetched : fetch s = fetch t := by rw [fetch, fetch, hpc, hm]
  cases hmark : s.faultMark with
  | some f =>
    rw [stepUnder_of_mark hmark, stepUnder_of_mark (hf ▸ hmark)]
    exact .fault f
  | none =>
    cases hdec : decode p (fetch s) with
    | ok i =>
      rw [stepUnder_of_decode_ok hmark hdec, stepUnder_of_decode_ok (hf ▸ hmark) (fetched ▸ hdec)]
      exact exec_lockstep i ⟨hpc, hm, hf⟩
    | error e =>
      cases e
      rw [stepUnder_of_decode_error hmark hdec, stepUnder_of_decode_error (hf ▸ hmark) (fetched ▸ hdec), hpc, fetched]
      exact .fault _

/-- The runs from two such states stay in lockstep. -/
theorem runUnder_lockstep (p : Config.ExtraPolicy) (k : Nat) (h : s.sameControl t) :
    Lockstep (runUnder p k s) (runUnder p k t) := by
  induction k generalizing s t with
  | zero => exact .next h
  | succ k ih =>
    have hstep := stepUnder_lockstep p h
    rw [runUnder, runUnder]
    generalize stepUnder p s = a, stepUnder p t = b at hstep
    cases hstep with
    | next hst => exact ih hst
    | fault f => exact .fault f

/-- A run answers a next state or faults; it is never refused. -/
theorem runUnder_next_or_fault (p : Config.ExtraPolicy) (k : Nat) (s : State) :
    (∃ t, runUnder p k s = .next t) ∨ ∃ f, runUnder p k s = .fault f :=
  (runUnder_lockstep p k s.sameControl_refl).next_or_fault

end Sys2Proof.Machine
end

section
/-! SUPPORT. Recurrence (42_control_flow.md rule R66): memory is constant and the next PC depends on it and the PC alone, so a
run that comes back to a PC goes round for ever; and with 256 addresses a run of 256 steps does come back to one. -/

namespace Sys2Proof.Machine

variable {p : Config.ExtraPolicy} {s t u : State}

/-- A step that answers a next state leaves the fault mark as it was (60_exceptions.md rule R69). -/
theorem stepUnder_faultMark (h : stepUnder p s = .next t) : t.faultMark = s.faultMark := by
  obtain ⟨-, i, -, hexec⟩ := stepUnder_eq_next h
  exact exec_faultMark hexec

theorem runUnder_faultMark {k : Nat} (h : runUnder p k s = .next t) : t.faultMark = s.faultMark :=
  runUnder_keeps (P := fun u => u.faultMark = s.faultMark) (fun hu hstep => (stepUnder_faultMark hstep).trans hu) rfl h

/-- The states of one run differ in the PC and the registers only. -/
theorem sameControl_of_pc_eq {n m : Nat} (ht : runUnder p n s = .next t) (hu : runUnder p m s = .next u)
    (hpc : t.pc = u.pc) : t.sameControl u :=
  ⟨hpc, (runUnder_mem ht).trans (runUnder_mem hu).symm, (runUnder_faultMark ht).trans (runUnder_faultMark hu).symm⟩

/-- A run that answers a next state has answered one after every smaller number of steps. -/
theorem runUnder_next_of_le {k m : Nat} (hkm : k ≤ m) (h : runUnder p m s = .next u) :
    ∃ t, runUnder p k s = .next t := by
  induction k generalizing s m with
  | zero => exact ⟨s, rfl⟩
  | succ k ih =>
    obtain ⟨m, rfl⟩ := Nat.exists_eq_add_of_le' hkm
    rw [← Nat.add_assoc, runUnder] at h
    rw [runUnder]
    split at h
    · exact ih (Nat.le_add_left k m) h
    · cases h
    · cases h

/-- A run that comes back to its first PC never faults: each round is in lockstep with the first. -/
theorem runUnder_next_of_recurrence {d : Nat} (hd : 0 < d) (hround : runUnder p d t = .next u) (htu : t.sameControl u)
    (j : Nat) : ∃ v, runUnder p j t = .next v := by
  induction j using Nat.strong_induction_on with
  | h j ih =>
    rcases Nat.le_total j d with hj | hj
    · exact runUnder_next_of_le hj hround
    · obtain ⟨j, rfl⟩ := Nat.exists_eq_add_of_le hj
      obtain ⟨v, hv⟩ := ih j (by omega)
      obtain ⟨w, hw, -⟩ := (hv ▸ runUnder_lockstep p j htu).of_next
      exact ⟨w, (runUnder_add p d j t u hround).trans hw⟩

/-- Among the 257 PC values of a run of 256 steps two are equal, so the run comes back to the state at the first of them, but
for R0 and R1. -/
theorem exists_recurrence (h : runUnder p 256 s = .next u) :
    ∃ n d t t', 0 < d ∧ n + d ≤ 256 ∧ runUnder p n s = .next t ∧ runUnder p d t = .next t' ∧ t.sameControl t' := by
  have reached : ∀ k : Fin 257, ∃ t, runUnder p k s = .next t := fun k => runUnder_next_of_le (by omega) h
  choose stateAt hstate using reached
  obtain ⟨a, b, hne, hpc⟩ : ∃ a b, a ≠ b ∧ (stateAt a).pc.toFin = (stateAt b).pc.toFin :=
    Fintype.exists_ne_map_eq_of_card_lt _ (by simp)
  wlog hlt : a < b generalizing a b
  · exact this b a hne.symm hpc.symm (by omega)
  obtain ⟨d, hd⟩ := Nat.exists_eq_add_of_lt hlt
  have hround : runUnder p (d + 1) (stateAt a) = .next (stateAt b) := by
    rw [← runUnder_add p a (d + 1) s _ (hstate a), ← hstate b, hd]
    rfl
  exact ⟨a, d + 1, _, _, by omega, by omega, hstate a, hround,
    sameControl_of_pc_eq (hstate a) (hstate b) (BitVec.toFin_inj.mp hpc)⟩

end Sys2Proof.Machine
end

section
/-! SUPPORT. JMP as numbers (30_encoding.md rules R42, R45): its byte, the bytes that are its own, and the target and the distance
of a jump. -/

namespace Sys2Proof

theorem toInt_emod_two_pow {w : Nat} (x : BitVec w) : x.toInt % (2 ^ w : Nat) = x.toNat := by
  rw [BitVec.toInt_eq_toNat_bmod, Int.bmod_emod]
  exact Int.emod_eq_of_lt (Int.natCast_nonneg _) (Int.ofNat_lt.mpr x.isLt)

theorem encode_jmp (off : BitVec 4) : encode (.jmp off) = (0b1111 : BitVec 4) ++ off := rfl

theorem encode_jmp_toNat (off : BitVec 4) : ((encode (.jmp off)).toNat : Int) = 0xF0 + off.toInt % 16 := by
  have opcode_toNat : (0b1111 : BitVec 4).toNat = 15 := rfl
  have field : off.toInt % 16 = off.toNat := toInt_emod_two_pow off
  rw [encode_jmp, toNat_append_eq_add, opcode_toNat, field]
  omega

/-- The highest opcode is JMP's (30_encoding.md rule R46). -/
theorem decode_jmp {p : Config.ExtraPolicy} {ir : Byte} (h : 0xF0 ≤ ir.toNat) :
    decode p ir = .ok (.jmp (lowField ir)) := by
  have hlt := ir.isLt
  have opcode_eq : opcodeField ir = 0b1111 :=
    BitVec.eq_of_toNat_eq ((opcodeField_toNat ir).trans (by omega : ir.toNat / 16 = 0b1111))
  exact IsNibbleRow.decode_eq (opcode_eq ▸ .jmp)

end Sys2Proof

namespace Sys2Proof.Machine

/-- The target of a jump from `a`, as a number (42_control_flow.md rule R65). -/
theorem jmp_target_toNat (a : Byte) (off : BitVec 4) :
    ((a + 1 + sext8 off).toNat : Int) = ((a.toNat : Int) + 1 + off.toInt) % 256 := by
  have one : (1 : Byte).toNat = 1 := rfl
  have field : off.toInt % 256 = (sext8 off).toNat := sext8_toInt off ▸ toInt_emod_two_pow (sext8 off)
  rw [BitVec.toNat_add, BitVec.toNat_add, one]
  omega

/-- A jump by its distance from its own address. -/
theorem exec_jmp_of_distance {off : BitVec 4} {d : Byte} (h : 1 + sext8 off = d) (s : State) :
    exec (.jmp off) s = .next (s.setPc (s.pc + d)) := by
  rw [exec_jmp, add_assoc, h]

end Sys2Proof.Machine
end

section
/-! The statements of 42_control_flow.md. -/

namespace Sys2Proof.Machine

open Assembler

/-- Settles O30: the two runs are in lockstep. -/
theorem pcTrajectoryIgnoresRegisters : Obligations.PcTrajectoryIgnoresRegisters := by
  intro p k s t hst
  have hrun := runUnder_lockstep p k hst
  exact ⟨fun s' h => (h ▸ hrun).of_next, fun f h => (h ▸ hrun).of_fault⟩

/-- Settles O31: a run of 256 steps that does not fault comes back to a PC, and goes round in lockstep with itself from there. -/
theorem trajectoryFaultsOrIsEventuallyPeriodic : Obligations.TrajectoryFaultsOrIsEventuallyPeriodic := by
  intro p s _
  obtain ⟨v, hv⟩ | ⟨f, hf⟩ := runUnder_next_or_fault p 256 s
  · obtain ⟨n, d, t, u, hd, hbound, ht, hround, htu⟩ := exists_recurrence hv
    have hu : runUnder p (n + d) s = .next u := (runUnder_add p n d s t ht).trans hround
    refine .inr ⟨n, n + d, by omega, hbound, fun j => ?_⟩
    obtain ⟨a, ha⟩ := runUnder_next_of_recurrence hd hround htu j
    obtain ⟨b, hb, hpc, -⟩ := (ha ▸ runUnder_lockstep p j htu).of_next
    exact ⟨a, b, (runUnder_add p n j s t ht).trans ha, (runUnder_add p (n + d) j s u hu).trans hb, hpc⟩
  · exact .inl ⟨256, f, Nat.le_refl 256, hf⟩

/-- Settles O6, by JMP's encoding as a number, the opcode of the bytes from 0xF0, and the target as a number. -/
theorem jmpAddsSignedOffsetToNextAddress : Obligations.JmpAddsSignedOffsetToNextAddress := by
  refine ⟨fun off p => ⟨encode_jmp_toNat off, decode_encode p _⟩, fun p ir h => ⟨_, decode_jmp h⟩, fun off s => ?_⟩
  exact ⟨hasSyntax_jmp off, rfl, _, exec_jmp off s, jmp_target_toNat s.pc off, fun r => State.setPc_reg s r _,
    fun _ => rfl, rfl⟩

/-- Settles O35: the distances of the four offsets. -/
theorem notableJumpOffsets : Obligations.NotableJumpOffsets := by
  intro s
  refine ⟨exec_jmp_of_distance (by decide) s, ?_, ?_, exec_jmp_of_distance (by decide) s⟩
  · exact (exec_jmp_of_distance (d := 0) (by decide) s).trans (by rw [add_zero]; rfl)
  · rw [sub_eq_add_neg]
    exact exec_jmp_of_distance (by decide) s

end Sys2Proof.Machine
end

section
/-! SUPPORT. What the step answers from a state without a fault mark, said once for both policies (60_exceptions.md rules R68,
R70 to R72): two faults, each by the byte at the PC alone, and a next state on every other byte. -/

namespace Sys2Proof

/-- The byte's opcode is one of the ten reserved ones (30_encoding.md rule R47). -/
abbrev HasReservedOpcode (ir : Byte) : Prop := 0x50 ≤ ir.toNat ∧ ir.toNat ≤ 0xEF

/-- The reserved rows are the opcodes 0101 to 1110 (rule R47). -/
theorem Instr.not_wellFormed_iff_opcode {i : Instr} :
    i.wellFormed = false ↔ 0b0101 ≤ i.opcode.toNat ∧ i.opcode.toNat ≤ 0b1110 := by
  cases i <;> simp [Instr.wellFormed, Instr.opcode]

theorem hasReservedOpcode_iff_not_wellFormed {i : Instr} {ir : Byte} (h : i.opcode = opcodeField ir) :
    HasReservedOpcode ir ↔ i.wellFormed = false := by
  rw [Instr.not_wellFormed_iff_opcode, h, opcodeField_toNat]
  omega

/-- An A-Type byte's reserved field, by the byte's number (rule R48). -/
theorem hasReservedExtra_iff_toNat (ir : Byte) :
    HasReservedExtra ir ↔ ir.toNat / 16 ∈ [0b0000, 0b0001, 0b0010, 0b0100] ∧ ir.toNat % 4 ≠ 0 := by
  have extra_eq : extraField ir = 0 ↔ ir.toNat % 4 = 0 := by
    rw [BitVec.toNat_eq, extraField_toNat, BitVec.ofNat_eq_ofNat, BitVec.toNat_zero]
  rw [HasReservedExtra, ne_eq, extra_eq]

/-- No A-Type opcode is reserved. -/
theorem not_hasReservedOpcode_of_aType {ir : Byte} (h : ir.toNat / 16 ∈ aTypeOpcodes) : ¬ HasReservedOpcode ir := by
  simp only [List.mem_cons, List.not_mem_nil, or_false] at h
  omega

/-- Outside the A-Type opcodes a byte that decodes is the encoding of what it decodes to (rules R50, R57). -/
theorem encode_eq_of_decode {p : Config.ExtraPolicy} {ir : Byte} {i : Instr} (h : decode p ir = .ok i)
    (hA : i.opcode.toNat ∉ aTypeOpcodes) : encode i = ir := by
  obtain ⟨hop, henc⟩ := encode_of_decode h
  rw [hop, opcodeField_toNat] at hA
  rw [henc, clearExtra, if_neg hA]

namespace Machine

variable {p : Config.ExtraPolicy} {s : State}

/-- The six implemented instructions complete from every state (60_exceptions.md rule R68). -/
theorem exec_of_wellFormed {i : Instr} (h : i.wellFormed = true) (s : State) : ∃ t, exec i s = .next t := by
  obtain ⟨d, hd⟩ | ⟨off, rfl⟩ | hw := i.shape_cases
  · exact ⟨_, exec_of_dest hd s⟩
  · exact ⟨_, exec_jmp off s⟩
  · cases h.symm.trans hw

/-- Everything the step can do from an unmarked state, branch by branch on the byte at the PC. -/
theorem stepUnder_eq (p : Config.ExtraPolicy) (hmark : s.faultMark = none) :
    ∃ t, stepUnder p s =
      if p = .fault ∧ HasReservedExtra (fetch s) then .fault (.reservedField s.pc (fetch s))
      else if HasReservedOpcode (fetch s) then .fault (.illegalInstruction s.pc (fetch s))
      else .next t := by
  obtain ⟨i, hop, -, hdec⟩ := decode_spec (fetch s)
  have reserved_iff := hasReservedOpcode_iff_not_wellFormed hop
  by_cases hextra : p = .fault ∧ HasReservedExtra (fetch s)
  · simp only [if_pos hextra]
    exact ⟨s, stepUnder_of_decode_error hmark ((hdec p).trans (if_pos hextra))⟩
  · have decoded : decode p (fetch s) = .ok i := (hdec p).trans (if_neg hextra)
    simp only [if_neg hextra, stepUnder_of_decode_ok hmark decoded]
    by_cases hreserved : HasReservedOpcode (fetch s)
    · have henc : encode i = fetch s := encode_eq_of_decode decoded fun hA => by
        rw [hop, opcodeField_toNat] at hA
        exact not_hasReservedOpcode_of_aType hA hreserved
      simp only [if_pos hreserved]
      exact ⟨s, henc ▸ exec_of_not_wellFormed (reserved_iff.mp hreserved) s⟩
    · simp only [if_neg hreserved]
      exact exec_of_wellFormed (Bool.eq_true_of_not_eq_false (reserved_iff.not.mp hreserved)) s

/-- The bytes that raise `ReservedField` (60_exceptions.md rule R71). -/
theorem stepUnder_eq_reservedField_iff (hmark : s.faultMark = none) {a ir : Byte} :
    stepUnder p s = .fault (.reservedField a ir) ↔
      (p = .fault ∧ HasReservedExtra (fetch s)) ∧ a = s.pc ∧ ir = fetch s := by
  obtain ⟨t, hstep⟩ := stepUnder_eq p hmark
  rw [hstep]
  split
  · next hextra =>
    exact ⟨fun h => by cases h; exact ⟨hextra, rfl, rfl⟩, fun ⟨_, ha, hir⟩ => by rw [ha, hir]⟩
  · next hextra => split <;> simp [hextra]

/-- The bytes that raise `IllegalInstruction` (60_exceptions.md rule R70); none of them has a reserved field. -/
theorem stepUnder_eq_illegal_iff (hmark : s.faultMark = none) {a ir : Byte} :
    stepUnder p s = .fault (.illegalInstruction a ir) ↔
      HasReservedOpcode (fetch s) ∧ a = s.pc ∧ ir = fetch s := by
  obtain ⟨t, hstep⟩ := stepUnder_eq p hmark
  rw [hstep]
  split
  · next hextra => simp [not_hasReservedOpcode_of_aType hextra.2.1]
  · split
    · next hreserved =>
      exact ⟨fun h => by cases h; exact ⟨hreserved, rfl, rfl⟩, fun ⟨_, ha, hir⟩ => by rw [ha, hir]⟩
    · next hreserved => simp [hreserved]

/-- A step is never refused. -/
theorem stepUnder_next_or_fault (p : Config.ExtraPolicy) (s : State) :
    (∃ t, stepUnder p s = .next t) ∨ ∃ f, stepUnder p s = .fault f :=
  (stepUnder_lockstep p s.sameControl_refl).next_or_fault

end Machine
end Sys2Proof
end

section
/-! SUPPORT. Where a run stands still (60_exceptions.md rules R69, R79): at a state with the fault mark, and at a halted state,
which is the one kind of state that steps to itself. -/

namespace Sys2Proof.Machine

variable {p : Config.ExtraPolicy} {s t : State} {f : Fault}

/-- With the mark set, nothing follows (rule R69). -/
theorem State.after_of_mark (h : s.faultMark = some f) : s.after p = s := by
  rw [State.after, stepUnder_of_mark h]
  cases s; cases h; rfl

/-- The state after a fault, and after any steps that follow it. -/
theorem State.afterSteps_succ_of_fault (h : stepUnder p s = .fault f) (k : Nat) :
    s.afterSteps p (k + 1) = s.markFault f := by
  have marked : s.after p = s.markFault f := by rw [State.after, h]
  exact State.afterSteps_keeps (P := (· = s.markFault f))
    (fun ht => by rw [ht, State.after_of_mark (State.markFault_faultMark s f)]) k marked

theorem halted_eq_true_iff : halted s = true ↔ s.faultMark = none ∧ fetch s = 0xFF := by
  simp [halted, fetch]

theorem halted_of_mark (h : s.faultMark = some f) : halted s = false := by
  simp [halted, h]

/-- Being halted is read off the PC, memory and the mark. -/
theorem halted_congr (h : s.sameControl t) : halted s = halted t := by
  obtain ⟨hpc, hm, hf⟩ := h
  rw [halted, halted, hpc, hm, hf]

/-- Only `jmp -1` maps a state to itself (42_control_flow.md rule R67): every other instruction moves the PC. -/
theorem exec_eq_self_iff {i : Instr} : exec i s = .next s ↔ i = .jmp 0b1111 := by
  refine ⟨fun h => ?_, fun h => h ▸ (notableJumpOffsets s).2.1⟩
  obtain ⟨d, hd⟩ | ⟨off, rfl⟩ | hw := i.shape_cases
  · rw [exec_of_dest hd] at h
    have hpc : s.pc + 1 = s.pc := congrArg State.pc (Host.Outcome.next.inj h)
    simp at hpc
  · rw [exec_jmp] at h
    have hpc : s.pc + 1 + sext8 off = s.pc := congrArg State.pc (Host.Outcome.next.inj h)
    rw [add_assoc, add_eq_left] at hpc
    clear h
    revert off; decide
  · rw [exec_of_not_wellFormed hw] at h
    cases h

theorem decode_eq_jmp_back_iff {ir : Byte} : decode p ir = .ok (.jmp 0b1111) ↔ ir = 0xFF :=
  ⟨fun h => (encode_eq_of_decode h (by decide)).symm, fun h => h ▸ decode_encode p (.jmp 0b1111)⟩

theorem stepUnder_eq_self_iff : stepUnder p s = .next s ↔ halted s = true := by
  rw [halted_eq_true_iff]
  constructor
  · intro h
    obtain ⟨hmark, i, hdec, hexec⟩ := stepUnder_eq_next h
    rw [exec_eq_self_iff] at hexec
    exact ⟨hmark, decode_eq_jmp_back_iff.mp (hexec ▸ hdec)⟩
  · rintro ⟨hmark, hir⟩
    rw [stepUnder_of_decode_ok hmark (decode_eq_jmp_back_iff.mpr hir), exec_eq_self_iff]

end Sys2Proof.Machine
end

section
/-! SUPPORT. The ends of a run (60_exceptions.md rules R69, R79): a halted state and a fault stay for ever, so a run has one end;
and a run that has met neither within 256 steps meets neither at all. -/

namespace Sys2Proof.Machine

variable {p : Config.ExtraPolicy} {s t u : State} {f : Fault} {k m : Nat}

theorem runUnder_of_halted (h : halted t = true) (k : Nat) : runUnder p k t = .next t := by
  induction k with
  | zero => rfl
  | succ k ih => rw [runUnder, stepUnder_eq_self_iff.mpr h]; exact ih

/-- A run that has reached a halted state stands there. -/
theorem runUnder_halted_of_le (h : runUnder p k s = .next t) (ht : halted t = true) (hkm : k ≤ m) :
    runUnder p m s = .next t := by
  obtain ⟨j, rfl⟩ := Nat.exists_eq_add_of_le hkm
  rw [runUnder_add p k j s t h, runUnder_of_halted ht]

/-- A run that has faulted has faulted for ever, with that fault. -/
theorem runUnder_fault_of_le (h : runUnder p k s = .fault f) (hkm : k ≤ m) : runUnder p m s = .fault f := by
  induction k generalizing s m with
  | zero => cases h
  | succ k ih =>
    obtain ⟨m, rfl⟩ := Nat.exists_eq_add_of_le' hkm
    rw [runUnder] at h
    rw [← Nat.add_assoc, runUnder]
    split at h
    · exact ih h (Nat.le_add_left k m)
    · exact h
    · cases h

/-- What a run that stands at an outcome is to be reported as. -/
def standingEnd : Host.Outcome State Fault Refusal → RunEnd
  | .next t => if halted t then .complete t else .nonTerminating
  | .fault f => .faulted f
  | .refused r => .refused r

/-- The run from `s` ends as a report says (rule R79). -/
def EndsAs (p : Config.ExtraPolicy) (s : State) : RunEnd → Prop
  | .complete t => CompletesAt p s t
  | .faulted f => ∃ k, runUnder p k s = .fault f
  | .nonTerminating => NonTerminating p s
  | .refused r => ∃ k, runUnder p k s = .refused r

theorem not_endsAs_refused {r : Refusal} : ¬ EndsAs p s (.refused r) := by
  rintro ⟨k, hk⟩
  obtain ⟨t, ht⟩ | ⟨f, hf⟩ := runUnder_next_or_fault p k s
  · cases hk.symm.trans ht
  · cases hk.symm.trans hf

/-- From some step on, a run stands at its end. -/
theorem EndsAs.standing {e : RunEnd} (h : EndsAs p s e) : ∃ n, ∀ k, n ≤ k → standingEnd (runUnder p k s) = e := by
  cases e with
  | complete t =>
    obtain ⟨n, hn, ht⟩ := h
    exact ⟨n, fun k hk => by rw [runUnder_halted_of_le hn ht hk]; exact if_pos ht⟩
  | faulted f =>
    obtain ⟨n, hn⟩ := h
    exact ⟨n, fun k hk => by rw [runUnder_fault_of_le hn hk]; rfl⟩
  | nonTerminating =>
    refine ⟨0, fun k _ => ?_⟩
    obtain ⟨t, hk, ht⟩ := h k
    simp [hk, standingEnd, ht]
  | refused r => exact absurd h not_endsAs_refused

/-- A run has one end. -/
theorem EndsAs.unique {e e' : RunEnd} (h : EndsAs p s e) (h' : EndsAs p s e') : e = e' := by
  obtain ⟨n, hn⟩ := h.standing
  obtain ⟨n', hn'⟩ := h'.standing
  exact (hn (max n n') (le_max_left n n')).symm.trans (hn' (max n n') (le_max_right n n'))

/-- A run that comes back to its first PC and meets no halted state on the way round never meets one. -/
theorem nonTerminating_of_round {d : Nat} (hd : 0 < d) (hround : runUnder p d t = .next u) (htu : t.sameControl u)
    (running : ∀ k, k ≤ d → ∃ v, runUnder p k t = .next v ∧ halted v = false) : NonTerminating p t := by
  intro k
  induction k using Nat.strong_induction_on with
  | h k ih =>
    rcases Nat.le_total k d with hk | hk
    · exact running k hk
    · obtain ⟨j, rfl⟩ := Nat.exists_eq_add_of_le hk
      obtain ⟨v, hv, hrunning⟩ := ih j (by omega)
      obtain ⟨w, hw, hvw⟩ := (hv ▸ runUnder_lockstep p j htu).of_next
      exact ⟨w, (runUnder_add p d j t u hround).trans hw, halted_congr hvw ▸ hrunning⟩

/-- 256 steps decide that a run does not terminate: by then it has gone round (42_control_flow.md rule R66). -/
theorem nonTerminating_of_within (running : ∀ k, k ≤ 256 → ∃ t, runUnder p k s = .next t ∧ halted t = false) :
    NonTerminating p s := by
  obtain ⟨v, hv, -⟩ := running 256 le_rfl
  obtain ⟨n, d, t, u, hd, hbound, ht, hround, htu⟩ := exists_recurrence hv
  have fromLoop : NonTerminating p t := nonTerminating_of_round hd hround htu fun k hk => by
    rw [← runUnder_add p n k s t ht]
    exact running (n + k) (by omega)
  intro k
  rcases Nat.le_total k n with hk | hk
  · exact running k (by omega)
  · obtain ⟨j, rfl⟩ := Nat.exists_eq_add_of_le hk
    rw [runUnder_add p n j s t ht]
    exact fromLoop j

theorem runEnd_endsAs (p : Config.ExtraPolicy) (s : State) : EndsAs p s (runEnd p s) := by
  obtain ⟨t, k, -, he, hk, ht⟩ | ⟨f, k, -, he, hk⟩ | ⟨he, running⟩ | ⟨r, k, -, he, hk⟩ := runEndWithin_cases p 256 s
  all_goals rw [runEnd, he]
  · exact ⟨k, hk, ht⟩
  · exact ⟨k, hk⟩
  · exact nonTerminating_of_within running
  · exact ⟨k, hk⟩

/-- The report says a thing of a run exactly when it is so. -/
theorem runEnd_eq_iff {e : RunEnd} : runEnd p s = e ↔ EndsAs p s e :=
  ⟨fun h => h ▸ runEnd_endsAs p s, fun h => (runEnd_endsAs p s).unique h⟩

end Sys2Proof.Machine
end

section
/-! The statements of 60_exceptions.md. -/

namespace Sys2Proof.Machine

/-- Settles O44: a run has one end, and the report after 256 steps names it. -/
theorem runIsReportedAsItEnds : Obligations.RunIsReportedAsItEnds :=
  fun _ _ => ⟨fun _ => runEnd_eq_iff, fun _ => runEnd_eq_iff, runEnd_eq_iff,
    fun _ h => not_endsAs_refused (runEnd_eq_iff.mp h)⟩

/-- Settles O9: the encoding decodes to its instruction, and an implemented instruction completes. -/
theorem implementedInstructionsAlwaysComplete : Obligations.ImplementedInstructionsAlwaysComplete := by
  intro p i s hw hmark hfetch
  obtain ⟨t, ht⟩ := exec_of_wellFormed hw s
  have hdec : decode p (fetch s) = .ok i := hfetch ▸ decode_encode p i
  have hstep : stepUnder p s = exec i s := stepUnder_of_decode_ok hmark hdec
  exact ⟨t, hstep.trans ht, ht, (exec_faultMark ht).trans hmark⟩

/-- Settles O19: each fault is raised exactly on its bytes, and a step that does not fault answers a next state. -/
theorem stepFaultsExactlyOnReservedBytes : Obligations.StepFaultsExactlyOnReservedBytes := by
  intro p s hmark
  refine ⟨fun a ir => ?_, fun a ir => ?_, fun hno => ?_, fun r hr => ?_⟩
  · rw [stepUnder_eq_illegal_iff hmark]
    constructor
    · rintro ⟨h, ha, rfl⟩; exact ⟨ha, rfl, h⟩
    · rintro ⟨ha, rfl, h⟩; exact ⟨h, ha, rfl⟩
  · rw [stepUnder_eq_reservedField_iff hmark, ← hasReservedExtra_iff_toNat]
    constructor
    · rintro ⟨⟨hp, h⟩, ha, rfl⟩; exact ⟨hp, ha, rfl, h⟩
    · rintro ⟨hp, ha, rfl, h⟩; exact ⟨⟨hp, h⟩, ha, rfl⟩
  · obtain ht | ⟨f, hf⟩ := stepUnder_next_or_fault p s
    · exact ht
    · exact absurd hf (hno f)
  · obtain ⟨t, ht⟩ | ⟨f, hf⟩ := stepUnder_next_or_fault p s
    · cases hr.symm.trans ht
    · cases hr.symm.trans hf

/-- Settles O21: the state after the fault is the marked one, and stays. -/
theorem faultKeepsStateAndStaysMarked : Obligations.FaultKeepsStateAndStaysMarked := by
  intro p s f hmark hfault k
  rw [State.afterSteps_succ_of_fault hfault]
  have marked : (s.markFault f).faultMark = some f := by rw [State.markFault_faultMark, hmark]; rfl
  exact ⟨rfl, rfl, rfl, rfl, marked, halted_of_mark marked, stepUnder_of_mark marked⟩

/-- Settles O32: the only instruction that keeps the PC is the one whose byte is 0xFF. -/
theorem stateStepsToItselfExactlyWhenHalted : Obligations.StateStepsToItselfExactlyWhenHalted :=
  fun _ _ => stepUnder_eq_self_iff

/-- Settles O33: a halted state stands, and a run has one end. -/
theorem completeRunHasOneResult : Obligations.CompleteRunHasOneResult := by
  refine ⟨fun p k t ht => runUnder_of_halted ht k, fun p s t ht => ⟨fun u hu => ?_, fun k f hf => ?_⟩⟩
  · cases EndsAs.unique (e := .complete t) (e' := .complete u) ht hu
    exact ⟨rfl, rfl⟩
  · cases EndsAs.unique (e := .complete t) (e' := .faulted f) ht ⟨k, hf⟩

end Sys2Proof.Machine
end

section
/-! SUPPORT. The decoder's answer by format, with the operands as the byte's own fields, which is how the datapath reads them
(30_encoding.md rule R50, 70_reset_and_hazards.md rule R91). -/

namespace Sys2Proof

/-- What a decoded byte is, in its own fields. -/
theorem decode_eq_ok {p : Config.ExtraPolicy} {ir : Byte} {i : Instr} (h : decode p ir = .ok i) :
    (∃ op mk, IsATypeRow op mk ∧ i = mk (dsField ir) (sField ir)) ∨ i = .addi (dsField ir) (immField ir) ∨
    ∃ op mk, IsNibbleRow op mk ∧ i = mk (lowField ir) := by
  obtain ⟨mk, hrow⟩ | hop | ⟨mk, hrow⟩ := opcode_cases (opcodeField ir)
  · rw [hrow.decode_eq, decodeAType] at h
    split at h
    · cases h
    · cases h; exact .inl ⟨_, mk, hrow, rfl⟩
  · rw [decode_addi hop] at h
    cases h; exact .inr (.inl rfl)
  · rw [hrow.decode_eq] at h
    cases h; exact .inr (.inr ⟨_, mk, hrow, rfl⟩)

end Sys2Proof
end

section
/-! SUPPORT. The cycle tables' rows, run one after the other (70_reset_and_hazards.md rules R90 to R93). -/

namespace Sys2Proof.Machine

variable {p : Config.ExtraPolicy} {i : Instr} {ts : List Transfer} {d : Datapath} {t : Transfer}

/-- The datapath with its controller in another state. -/
def Datapath.atState (d : Datapath) (n : Nat) : Datapath := { d with state := n }

/-- The rows' transfers, without the controller. -/
def Datapath.transfers (ts : List Transfer) (d : Datapath) : Datapath := ts.foldl (fun e t => t.apply e) d

@[simp] theorem Datapath.transfers_nil : d.transfers [] = d := rfl
@[simp] theorem Datapath.transfers_cons : d.transfers (t :: ts) = (t.apply d).transfers ts := rfl

/-- A transfer does not read the controller's state. -/
theorem Transfer.apply_atState (t : Transfer) (d : Datapath) (n : Nat) :
    t.apply (d.atState n) = (t.apply d).atState n := by cases t <;> rfl

theorem Datapath.transfers_atState (ts : List Transfer) (d : Datapath) (n : Nat) :
    (d.atState n).transfers ts = (d.transfers ts).atState n := by
  induction ts generalizing d with
  | nil => rfl
  | cons t ts ih => rw [transfers_cons, Transfer.apply_atState, ih, transfers_cons]

/-- Only the last row of the fetch loads IR (rule R91). -/
theorem Transfer.apply_ir (h : t ≠ .irFromMdr) (d : Datapath) : (t.apply d).ir = d.ir := by
  cases t
  case irFromMdr => exact absurd rfl h
  all_goals rfl

theorem irFromMdr_not_mem_executePhase (h : executePhase i = some ts) : .irFromMdr ∉ ts := by
  cases i <;> cases h <;> decide

/-- The implemented instructions have an execute phase: three rows, and five for ADDM (rules R91 to R93). -/
theorem executePhase_of_wellFormed (h : i.wellFormed = true) :
    ∃ ts, executePhase i = some ts ∧ ts.length = if i.isAddm then 5 else 3 := by
  cases i <;> cases h <;> exact ⟨_, rfl, rfl⟩

/-- A reserved row has no execute phase. -/
theorem executePhase_of_not_wellFormed (h : i.wellFormed = false) : executePhase i = none := by
  cases i <;> cases h <;> rfl

/-- Past the fetch, a byte that the decoder refuses faults with the address before the PC. -/
theorem cycle_of_decode_error (hf : fetchPhase[d.state]? = none) (hd : decode p d.ir = .error .reservedExtra) :
    d.cycle p = .fault (.reservedField (d.arch.pc - 1) d.ir) := by
  unfold Datapath.cycle; rw [hf]; simp only [hd]

/-- Past the fetch, a byte without an execute phase faults with the address before the PC. -/
theorem cycle_of_no_executePhase (hf : fetchPhase[d.state]? = none) (hd : decode p d.ir = .ok i)
    (he : executePhase i = none) : d.cycle p = .fault (.illegalInstruction (d.arch.pc - 1) d.ir) := by
  unfold Datapath.cycle; rw [hf]; simp only [hd, he]

theorem cycles_succ_of_next {e : Datapath} (h : d.cycle p = .next e) (n : Nat) :
    Datapath.cycles p (n + 1) d = Datapath.cycles p n e := by
  rw [Datapath.cycles, h]

theorem cycles_succ_of_fault {f : Fault} (h : d.cycle p = .fault f) (n : Nat) :
    Datapath.cycles p (n + 1) d = .fault f := by
  rw [Datapath.cycles, h]

/-- The cycle of a row of the execute phase, by whether it is the last (rule R90). -/
theorem cycle_of_executePhase_row {ran rest : List Transfer} (hd : decode p d.ir = .ok i)
    (he : executePhase i = some (ran ++ t :: rest)) (hstate : d.state = 4 + ran.length) :
    d.cycle p = .next ((t.apply d).atState (if rest = [] then 0 else d.state + 1)) := by
  have hfetch : fetchPhase[d.state]? = none := List.getElem?_eq_none (by simp [fetchPhase, hstate])
  have hrow : (ran ++ t :: rest)[d.state - 4]? = some t := by simp [hstate]
  have last_iff : d.state - 4 + 1 = (ran ++ t :: rest).length ↔ rest = [] := by
    rw [hstate, List.length_append, List.length_cons, ← List.length_eq_zero_iff]
    omega
  simp only [cycle_of_execute hfetch hd he hrow, last_iff, Datapath.atState]

/-- From any row of the execute phase on, the remaining rows run one per cycle and return the controller to state 0. -/
theorem cycles_executePhase_rest {ran rest : List Transfer} (hd : decode p d.ir = .ok i)
    (he : executePhase i = some (ran ++ t :: rest)) (hstate : d.state = 4 + ran.length) :
    Datapath.cycles p (rest.length + 1) d = .next ((d.transfers (t :: rest)).atState 0) := by
  rw [cycles_succ_of_next (cycle_of_executePhase_row hd he hstate)]
  induction rest generalizing ran t d with
  | nil => rfl
  | cons u rest ih =>
    have ht : t ≠ .irFromMdr := fun heq => irFromMdr_not_mem_executePhase he (by simp [heq])
    have hd' : decode p ((t.apply d).atState (d.state + 1)).ir = .ok i := (Transfer.apply_ir ht d).symm ▸ hd
    have he' : executePhase i = some ((ran ++ [t]) ++ u :: rest) := by simpa using he
    have hstate' : ((t.apply d).atState (d.state + 1)).state = 4 + (ran ++ [t]).length := by
      rw [List.length_append, ← Nat.add_assoc, ← hstate]; rfl
    rw [List.length_cons, if_neg (List.cons_ne_nil u rest),
      cycles_succ_of_next (cycle_of_executePhase_row hd' he' hstate'), ih hd' he' hstate', Datapath.transfers_atState]
    rfl

/-- The execute phase, run from its first row. -/
theorem cycles_executePhase (hd : decode p d.ir = .ok i) (he : executePhase i = some ts) (hstate : d.state = 4) :
    Datapath.cycles p ts.length d = .next ((d.transfers ts).atState 0) := by
  cases ts with
  | nil => cases i <;> cases he
  | cons t rest => exact cycles_executePhase_rest (ran := []) hd he hstate

/-- The datapath after the fetch: the byte at the PC in MDR and IR, its address in MAR, and the PC advanced (rule R91). -/
def Datapath.fetched (s : State) (x : Byte) : Datapath :=
  { arch := s.setPc s.nextPc, mar := s.pc, mdr := fetch s, ir := fetch s, x := x, z := s.nextPc, state := 4 }

/-- The fetch takes four cycles, whatever MAR, MDR, IR and Z hold (rule R91). -/
theorem cycles_fetch (p : Config.ExtraPolicy) (n : Nat) (s : State) (mar mdr ir x z : Byte) :
    Datapath.cycles p (4 + n) ⟨s, mar, mdr, ir, x, z, 0⟩ = Datapath.cycles p n (Datapath.fetched s x) := by
  rw [Nat.add_comm]; rfl

/-- The PC of the fetched datapath is one past the byte's address, modulo 256. -/
theorem Datapath.fetched_pc_sub_one (s : State) (x : Byte) : (Datapath.fetched s x).arch.pc - 1 = s.pc :=
  add_sub_cancel_right s.pc 1

/-- A register written after the fetch's increment of the PC: the same state as `retire`. -/
theorem State.setReg_setPc_nextPc (s : State) (r : Reg) (v : Byte) : (s.setPc s.nextPc).setReg r v = s.retire r v := by
  cases r <;> rfl

/-- After the fetch, the transfers of an instruction's execute phase do to the architectural state what the instruction does,
row by row of the tables (rules R91 to R93). -/
theorem transfers_fetched_arch {s u : State} {x : Byte} (hd : decode p (fetch s) = .ok i) (he : executePhase i = some ts)
    (hexec : exec i s = .next u) : ((Datapath.fetched s x).transfers ts).arch = u := by
  obtain ⟨op, mk, hrow, rfl⟩ | rfl | ⟨op, mk, hrow, rfl⟩ := decode_eq_ok hd
  · cases hrow
    all_goals
      cases he; cases hexec
      simp [Datapath.fetched, Transfer.apply, State.setReg_setPc_nextPc, State.indirect]
  · cases he; cases hexec
    simp [Datapath.fetched, Transfer.apply, State.setReg_setPc_nextPc]
  · cases hrow
    case jmp => cases he; cases hexec; rfl
    all_goals cases he

end Sys2Proof.Machine
end

section
/-! SUPPORT. The datapath from controller state 0 against the step (70_reset_and_hazards.md rules R91 to R93, 30_encoding.md
rule R52). -/

namespace Sys2Proof.Machine

variable {p : Config.ExtraPolicy} {i : Instr} {s t : State}

/-- The tables list seven states, and nine for ADDM (rules R91 to R93). -/
theorem tabulatedStates_of_executePhase {ts : List Transfer} (h : executePhase i = some ts) :
    i.tabulatedStates = some (4 + ts.length) := by
  rw [Instr.tabulatedStates, h]; rfl

/-- An instruction that completes is implemented. -/
theorem wellFormed_of_exec_next (h : exec i s = .next t) : i.wellFormed = true := by
  refine Bool.eq_true_of_not_eq_false fun hw => ?_
  cases (exec_of_not_wellFormed hw s).symm.trans h

/-- An instruction that faults is a reserved row. -/
theorem not_wellFormed_of_exec_fault {f : Fault} (h : exec i s = .fault f) : i.wellFormed = false := by
  refine Bool.eq_false_of_not_eq_true fun hw => ?_
  obtain ⟨t, ht⟩ := exec_of_wellFormed hw s
  cases ht.symm.trans h

/-- The fetch and the execute phase of a decoded instruction give what executing it gives. -/
theorem cycles_of_exec_next {ts : List Transfer} (hd : decode p (fetch s) = .ok i) (he : executePhase i = some ts)
    (hexec : exec i s = .next t) (mar mdr ir x z : Byte) :
    ∃ d, Datapath.cycles p (4 + ts.length) ⟨s, mar, mdr, ir, x, z, 0⟩ = .next d ∧ d.arch = t ∧ d.state = 0 := by
  have run := cycles_executePhase (d := Datapath.fetched s x) hd he rfl
  exact ⟨_, (cycles_fetch p _ s mar mdr ir x z).trans run, transfers_fetched_arch hd he hexec, rfl⟩

/-- Where the step faults, the first cycle after the fetch reports the same fault (log 12). -/
theorem cycle_fetched_of_fault {f : Fault} (hmark : s.faultMark = none) (h : stepUnder p s = .fault f) (x : Byte) :
    (Datapath.fetched s x).cycle p = .fault f := by
  have hfetch : fetchPhase[(Datapath.fetched s x).state]? = none := rfl
  cases hdec : decode p (fetch s) with
  | error e =>
    cases e
    cases (stepUnder_of_decode_error hmark hdec).symm.trans h
    rw [cycle_of_decode_error hfetch hdec, Datapath.fetched_pc_sub_one]
    rfl
  | ok i =>
    have hexec : exec i s = .fault f := (stepUnder_of_decode_ok hmark hdec).symm.trans h
    have hw := not_wellFormed_of_exec_fault hexec
    cases (exec_of_not_wellFormed hw s).symm.trans hexec
    obtain ⟨-, -, hbyte⟩ := (stepUnder_eq_illegal_iff hmark).mp h
    rw [cycle_of_no_executePhase hfetch hdec (executePhase_of_not_wellFormed hw), Datapath.fetched_pc_sub_one, hbyte]
    rfl

end Sys2Proof.Machine
end

section
/-! SUPPORT. Which results depend on the destination's previous value (70_reset_and_hazards.md rule R85). -/

namespace Sys2Proof.Machine

variable {i : Instr} {d : Reg}

/-- `sub d, d` gives 0 (40_arithmetic.md, corner cases of SUB). -/
theorem result_sub_self (d : Reg) (s : State) : result (.sub d d) s = 0 := sub_self (s.reg d)

/-- Where two previous values of the destination show in every other result: both registers hold 0xFF, and memory reads as 0. -/
def onesState : State := State.launch 0xFF 0xFF 0 []

/-- Every instruction with a destination `d` but `sub d, d` tells 0 from 1 in it. -/
theorem result_onesState_ne (hd : i.dest = some d) (hi : i ≠ .sub d d) :
    result i (onesState.setReg d 0) ≠ result i (onesState.setReg d 1) := by
  cases i
  case nand ds r => cases hd; cases d <;> cases r <;> decide
  case add ds r => cases hd; cases d <;> cases r <;> decide
  case addm ds r => cases hd; cases d <;> cases r <;> decide
  case addi ds imm =>
    cases hd
    rw [result, result, State.reg_setReg_same, State.reg_setReg_same]
    exact fun h => absurd (add_right_cancel h) (by decide)
  case sub ds r =>
    cases hd
    have hr : r ≠ d := fun h => hi (h ▸ rfl)
    rw [result, result, State.reg_setReg_same, State.reg_setReg_same, State.reg_setReg_of_ne _ _ _ _ hr,
      State.reg_setReg_of_ne _ _ _ _ hr]
    exact fun h => absurd (sub_left_inj.mp h) (by decide)
  all_goals cases hd

end Sys2Proof.Machine
end

section
/-! SUPPORT. The stated cycles of a straight run (70_reset_and_hazards.md rules R89, R95). -/

namespace Sys2Proof

/-- An implemented instruction takes 7 stated cycles, and ADDM 4 more (rule R89). -/
theorem Instr.statedCycles_of_wellFormed {i : Instr} (h : i.wellFormed = true) :
    ∃ f e, i.statedCycles = some (f, e) ∧ f + e = 7 + if i.isAddm then 4 else 0 := by
  cases i <;> cases h <;> exact ⟨_, _, rfl, rfl⟩

theorem straightRunCycles_cons {i : Instr} {is : List Instr} {f e n : Nat} (hi : i.statedCycles = some (f, e))
    (his : straightRunCycles is = some n) : straightRunCycles (i :: is) = some (f + e + n) := by
  rw [straightRunCycles, hi, his]

end Sys2Proof
end

section
/-! The statements of 70_reset_and_hazards.md. -/

namespace Sys2Proof.Machine

/-- Settles O39: four cycles fetch, and the rows of the execute phase do what the instruction does; where there is no such
phase the fifth cycle faults as the step does. -/
theorem cycleTablesRefineTheStep : Obligations.CycleTablesRefineTheStep := by
  intro p s mar mdr ir x z hmark
  refine ⟨fun i t hdec hstep => ?_, fun f hfault => ?_⟩
  · have hexec : exec i s = .next t := (stepUnder_of_decode_ok hmark hdec).symm.trans hstep
    obtain ⟨ts, he, hlen⟩ := executePhase_of_wellFormed (wellFormed_of_exec_next hexec)
    obtain ⟨d, hrun, harch, hstate⟩ := cycles_of_exec_next hdec he hexec mar mdr ir x z
    refine ⟨_, d, tabulatedStates_of_executePhase he, hrun, harch, hstate, ?_⟩
    rw [hlen]
    split <;> rfl
  · rw [cycles_fetch p 1]
    exact cycles_succ_of_fault (cycle_fetched_of_fault hmark hfault x) 0

/-- Settles O37: `sub d, d` gives 0, and every other result tells 0 from 1 in the destination. -/
theorem onlySelfSubtractionForgetsItsDestination : Obligations.OnlySelfSubtractionForgetsItsDestination := by
  intro i d hd
  constructor
  · intro forgets
    by_contra hi
    have same := forgets onesState _ _ 0 1 (exec_of_dest hd _) (exec_of_dest hd _)
    rw [State.retire_reg_same, State.retire_reg_same] at same
    exact result_onesState_ne hd hi same
  · rintro rfl s t u v w ht hu
    rw [exec_of_dest hd] at ht hu
    cases ht; cases hu
    rw [State.retire_reg_same, State.retire_reg_same, result_sub_self, result_sub_self]

/-- Settles O40, by induction on the run. -/
theorem straightRunTakesSevenPerInstructionPlusFourPerAddm :
    Obligations.StraightRunTakesSevenPerInstructionPlusFourPerAddm := by
  intro is hw
  induction is with
  | nil => rfl
  | cons i is ih =>
    obtain ⟨hi, his⟩ := List.forall_mem_cons.mp hw
    obtain ⟨f, e, hcycles, hsum⟩ := Instr.statedCycles_of_wellFormed hi
    rw [straightRunCycles_cons hcycles (ih his), hsum, List.length_cons, List.countP_cons, Option.some.injEq]
    split <;> omega

/-- Settles O27: a launch carries no mark, so a byte that decodes at its entry point is executed. -/
theorem launchFetchesAtResetPc : Obligations.LaunchFetchesAtResetPc :=
  fun _ _ _ _ _ h => stepUnder_of_decode_ok rfl h

/-- Settles O28: the reset memory is the empty one. -/
theorem resetMeetsTheInvariant : Obligations.ResetMeetsTheInvariant := ⟨Memory.nil_wf, rfl⟩

/-- Settles O41: the values as numbers and bits, and the one ALU row in each execute phase. -/
theorem aluFunctionsAndTheirSelectLines : Obligations.AluFunctionsAndTheirSelectLines := by
  refine ⟨rfl, rfl, rfl, fun a b => ⟨BitVec.toNat_add a b, ?_, fun k hk => ?_⟩, fun ds rs imm fn => ⟨?_, ?_, ?_, ?_⟩⟩
  · have hb := b.isLt
    rw [alu, BitVec.toNat_sub]
    omega
  · simp [alu, hk]
  all_goals
    intro ts hts
    cases hts
    simp

end Sys2Proof.Machine
end

section
/-! SUPPORT. Counting the decoder's answers over all bytes (95_test_vectors.md section 2.1): a class of answers is a list
of opcodes, with or without the refusal, so its bytes are counted opcode by opcode. -/

namespace Sys2Proof

variable {c : Except DecodeError Instr → Bool} {ops : List Nat} {refused : Bool}

/-- Whether the decoder's answer is in a class, by the byte's number (30_encoding.md rules R48, R50). -/
theorem class_decode_eq (hok : ∀ i, c (.ok i) = decide (i.opcode.toNat ∈ ops))
    (herr : c (.error .reservedExtra) = refused) (p : Config.ExtraPolicy) (ir : Byte) :
    c (decode p ir) = if p = .fault ∧ ir.toNat / 16 ∈ aTypeOpcodes ∧ ir.toNat % 4 ≠ 0 then refused
      else decide (ir.toNat / 16 ∈ ops) := by
  obtain ⟨i, hop, -, hdec⟩ := decode_spec ir
  rw [hdec, apply_ite c, herr, hok, hop, opcodeField_toNat]
  simp only [hasReservedExtra_iff_toNat]

/-- How many of an opcode's 16 bytes are in the class: where `extra` is checked, 4 bytes decode and 12 are refused. -/
def classSizeInRow (ops : List Nat) (refused : Bool) (p : Config.ExtraPolicy) (q : Nat) : Nat :=
  if p = .fault ∧ q ∈ aTypeOpcodes then 4 * (decide (q ∈ ops)).toNat + 12 * refused.toNat
  else 16 * (decide (q ∈ ops)).toNat

/-- One row's bytes are its opcode with each low nibble, and `extra` is the low nibble's lower half. -/
theorem countP_class_row (hok : ∀ i, c (.ok i) = decide (i.opcode.toNat ∈ ops))
    (herr : c (.error .reservedExtra) = refused) (p : Config.ExtraPolicy) {q : Nat} (hq : q < 16) :
    ((List.range 16).countP fun l => c (decode p (BitVec.ofNat 8 (16 * q + l)))) = classSizeInRow ops refused p q := by
  have answer : ∀ l ∈ List.range 16, c (decode p (BitVec.ofNat 8 (16 * q + l))) =
      if p = .fault ∧ q ∈ aTypeOpcodes ∧ l % 4 ≠ 0 then refused else decide (q ∈ ops) := fun l hl => by
    have hl := List.mem_range.mp hl
    have number : (BitVec.ofNat 8 (16 * q + l)).toNat = 16 * q + l := Nat.mod_eq_of_lt (by omega)
    have opcode : (16 * q + l) / 16 = q := by omega
    have extra : (16 * q + l) % 4 = l % 4 := by omega
    rw [class_decode_eq hok herr, number, opcode, extra]
  rw [List.countP_congr fun l hl => by rw [answer l hl], classSizeInRow]
  generalize decide (q ∈ ops) = decoded
  by_cases checked : p = .fault ∧ q ∈ aTypeOpcodes
  · simp only [checked, true_and, and_self, if_true]
    cases decoded <;> cases refused <;> rfl
  · simp only [← and_assoc, checked, false_and, if_false]
    cases decoded <;> rfl

/-- Numbers counted in rows of `m`. -/
theorem countP_range_mul (f : Nat → Bool) (m k : Nat) :
    (List.range (m * k)).countP f = ((List.range k).map fun q => (List.range m).countP fun l => f (m * q + l)).sum := by
  induction k with
  | zero => rfl
  | succ k ih =>
    rw [Nat.mul_succ, List.range_add, List.countP_append, ih, List.countP_map, List.range_succ, List.map_append,
      List.sum_append, List.map_singleton, List.sum_singleton]
    rfl

/-- The size of a class over all 256 bytes, counted opcode by opcode. -/
theorem countP_class_decode (hok : ∀ i, c (.ok i) = decide (i.opcode.toNat ∈ ops))
    (herr : c (.error .reservedExtra) = refused) (p : Config.ExtraPolicy) :
    ((List.range 256).map (BitVec.ofNat 8)).countP (fun ir => c (decode p ir)) =
      ((List.range 16).map (classSizeInRow ops refused p)).sum := by
  rw [List.countP_map, countP_range_mul _ 16 16]
  exact congrArg List.sum (List.map_congr_left fun q hq => countP_class_row hok herr p (List.mem_range.mp hq))

end Sys2Proof
end

section
/-! The statements of 95_test_vectors.md section 2.1 and of the reset. -/

namespace Sys2Proof.Machine

/-- Settles O15: each class is the list of its opcodes, and its size the sum of what it holds of each opcode's 16 bytes. -/
theorem decodeClassesHaveTheStatedSizes : Obligations.DecodeClassesHaveTheStatedSizes := by
  unfold Obligations.DecodeClassesHaveTheStatedSizes
  intro bytes count isA isAddi isJmp isReserved isExtra
  have hA : ∀ i, isA (.ok i) = decide (i.opcode.toNat ∈ aTypeOpcodes) := fun i => by cases i <;> rfl
  have hAddi : ∀ i, isAddi (.ok i) = decide (i.opcode.toNat ∈ [0b0011]) := fun i => by cases i <;> rfl
  have hJmp : ∀ i, isJmp (.ok i) = decide (i.opcode.toNat ∈ [0b1111]) := fun i => by cases i <;> rfl
  have hReserved : ∀ i, isReserved (.ok i) = decide (i.opcode.toNat ∈ List.range' 0b0101 10) := fun i => by
    cases i <;> rfl
  have hExtra : ∀ i, isExtra (.ok i) = decide (i.opcode.toNat ∈ []) := fun _ => rfl
  refine ⟨(countP_class_decode hA rfl .fault).trans ?_, (countP_class_decode hAddi rfl .fault).trans ?_,
    (countP_class_decode hJmp rfl .fault).trans ?_, (countP_class_decode hExtra rfl .fault).trans ?_,
    (countP_class_decode hReserved rfl .fault).trans ?_, (countP_class_decode hA rfl .ignore).trans ?_,
    (countP_class_decode hExtra rfl .ignore).trans ?_⟩
  all_goals decide

/-- Settles O26: the reset is the launch at `RESET_PC` with the model's register values and the empty memory, in which no
address is listed. -/
theorem resetStartsAtZeroWithoutFault : Obligations.ResetStartsAtZeroWithoutFault :=
  ⟨State.launch_pc .., State.launch_faultMark .., State.launch_r0 .., State.launch_r1 .., State.launch_mem ..,
    fun _ => Memory.read_of_unlisted (List.forall_mem_nil _)⟩

end Sys2Proof.Machine
end
